-- ==== Sys2Proof/Word.lean ====
section
/-!
DEFINITION. The word types of the Bargraph Canvas Controller (00_scope.md R13, 30_encoding.md R70).
-/

namespace Sys2Proof

/-- One canvas byte, or one byte handed to the transmit collaborator (R13: "A byte is a natural in 0..255"). -/
abbrev Byte := BitVec 8

/-- One command word: 40 bits, bit 39 the most significant (30_encoding.md R70). -/
abbrev Word := BitVec 40

end Sys2Proof
end

