-- ==== Sys2Proof/Config.lean ====
section
/-!
DEFINITION. The constants and parameters of the block (00_scope.md R9, R11, R12).
-/

namespace Sys2Proof.Config

/-- `MAX_BOARDS` (R9). -/
abbrev maxBoards : Nat := 8
/-- `MIN_BOARDS` (R9). -/
abbrev minBoards : Nat := 1
/-- `BITS_PER_BOARD` (R9). -/
abbrev bitsPerBoard : Nat := 32
/-- `BYTES_PER_BOARD` (R9). -/
abbrev bytesPerBoard : Nat := 4
/-- `LEDS_PER_BOARD` (R9). -/
abbrev ledsPerBoard : Nat := 30
/-- `PAD_PER_BOARD` (R9). -/
abbrev padPerBoard : Nat := 2
/-- `BOARDS_DEFAULT` (R9): the board count of a bare `init`. -/
abbrev boardsDefault : Nat := 1

/-- The two values the parameter `BIT_ORDER` can take (R11). -/
inductive BitOrder where
  | msbFirst
  | lsbFirst
  deriving DecidableEq, Repr, Inhabited

/-- What a draw for storage answers when `ALLOC_MAY_FAIL` is true (40_init.md R102). -/
inductive AllocOutcome where
  | obtained
  | failed
  deriving DecidableEq, Repr, Inhabited

/-- `SEL_PIN_DEFAULT` (R11, D12): OPEN, so it has no body. Read by the assembler only. Log entry 8. -/
opaque selPinDefault : BitVec 8

/-- `BIT_ORDER` (R12, D13): OPEN, so it has no body. No rule of the block reads it. Log entry 9. -/
opaque bitOrder : BitOrder

/-- `ALLOC_MAY_FAIL` (R11, R102, D11): the value this spec takes. Log entry 6. -/
def allocMayFail : Bool := false

/-- The free draw of an INIT of a legal count, one for each command index (R102, R38): no body, so no law holds of it.
It is read only where `ALLOC_MAY_FAIL` is true. Log entry 7. -/
opaque allocDraw : Nat → AllocOutcome

end Sys2Proof.Config
end

