-- ==== Sys2Proof/Syntax.lean ====
section
/-!
DEFINITION. The command set "BCC command set, spec edition 1": one constructor for each row of spec/opcode_table.json.
-/

namespace Sys2Proof

/-- A decoded command. Each operand has the width of its field (30_encoding.md R73 to R79); every operand is unsigned. -/
inductive Instr where
  /-- INIT (R73, R100): `boards` is the board count asked for, `pin` the select-line identifier. -/
  | init (boards : BitVec 8) (pin : BitVec 8)
  /-- CLEAR (R74, R140). -/
  | clear
  /-- PAINT (R75, R141): `pos` is a 0-based logical position, `v` the value of the LED's bit. -/
  | paint (pos : BitVec 16) (v : Bool)
  /-- FILL (R76, R143): `bar` is the lit count, `peak` the 1-based peak position with 0 meaning none. -/
  | fill (bar : BitVec 16) (peak : BitVec 16)
  /-- FLUSH (R77, R170). -/
  | flush
  /-- SENDRAW (R78, R172). -/
  | sendraw (value : BitVec 32)
  deriving DecidableEq, Repr

end Sys2Proof
end

