-- ==== Sys2Proof/WellFormed.lean ====
section
/-!
DEFINITION. Which operations have a command word: the operand checks of 30_encoding.md R79 and R85.

The source's operations take mathematical integers (30_encoding.md R72, R79); a command word holds fields of
fixed width. `Call` is an operation with natural operands, `Call.wellFormed` says that each operand fits its
field, and `Call.toInstr` gives the command. An `Instr` cannot hold an operand that does not fit.
-/

namespace Sys2Proof

/-- One of the six operations of the source (R72) with the operands it takes there: naturals (R79). -/
inductive Call where
  | init (boards pin : Nat)
  | clear
  | paint (pos v : Nat)
  | fill (bar peak : Nat)
  | flush
  | sendraw (value : Nat)
  deriving DecidableEq, Repr

/-- Every operand fits its field: `BOARDS` and `PIN` 8 bits, `POS`, `BAR` and `PEAK` 16, `V` 1, `VALUE` 32 (R79). -/
def Call.wellFormed : Call → Bool
  | .init boards pin => decide (boards < 2 ^ 8) && decide (pin < 2 ^ 8)
  | .clear => true
  | .paint pos v => decide (pos < 2 ^ 16) && decide (v < 2)
  | .fill bar peak => decide (bar < 2 ^ 16) && decide (peak < 2 ^ 16)
  | .flush => true
  | .sendraw value => decide (value < 2 ^ 32)

/-- The command of an operation, each operand put in its field. -/
def Call.fields : Call → Instr
  | .init boards pin => .init (BitVec.ofNat 8 boards) (BitVec.ofNat 8 pin)
  | .clear => .clear
  | .paint pos v => .paint (BitVec.ofNat 16 pos) (v == 1)
  | .fill bar peak => .fill (BitVec.ofNat 16 bar) (BitVec.ofNat 16 peak)
  | .flush => .flush
  | .sendraw value => .sendraw (BitVec.ofNat 32 value)

/-- The command of an operation whose operands fit; none where one does not (R85: "it does not truncate"). -/
def Call.toInstr (c : Call) : Option Instr :=
  if c.wellFormed then some c.fields else none

/-- The operation a command stands for, its fields read as naturals (R79). -/
def Instr.toCall : Instr → Call
  | .init boards pin => .init boards.toNat pin.toNat
  | .clear => .clear
  | .paint pos v => .paint pos.toNat v.toNat
  | .fill bar peak => .fill bar.toNat peak.toNat
  | .flush => .flush
  | .sendraw value => .sendraw value.toNat

/-- The operands of a command fit their fields; the types of `Instr` make this hold of every command. -/
def Instr.wellFormed (i : Instr) : Bool := i.toCall.wellFormed

end Sys2Proof
end

