-- ==== Sys2Proof/Decode.lean ====
section
/-!
DEFINITION. The command decoder (30_encoding.md R70 to R84), the encoder, and the opcode table.
-/

namespace Sys2Proof

/-- What a command word decodes to (R80): a command, or one of the two decode faults, by name. -/
inductive Decoded where
  /-- The word encodes this command. -/
  | instr (i : Instr)
  /-- `ILLEGAL_OPCODE` (R81): the opcode is none of 0x01 to 0x06. -/
  | illegalOpcode
  /-- `RESERVED_BITS` (R82): a legal opcode with a reserved bit set. -/
  | reservedBits
  deriving DecidableEq, Repr

/-- The field of `width` bits whose lowest is bit `lo` of the word (R14). -/
def field (w : Word) (lo width : Nat) : BitVec width := w.extractLsb' lo width

/-- `OP = w[39:32]` (R71). -/
def opField (w : Word) : BitVec 8 := field w 32 8

/-- INIT's word (R73): `[31:16]` reserved, `PIN = w[15:8]`, `BOARDS = w[7:0]`. -/
def decodeInit (w : Word) : Decoded :=
  if field w 16 16 = 0#16 then .instr (.init (field w 0 8) (field w 8 8)) else .reservedBits

/-- CLEAR's word (R74): `[31:0]` reserved. -/
def decodeClear (w : Word) : Decoded :=
  if field w 0 32 = 0#32 then .instr .clear else .reservedBits

/-- PAINT's word (R75): `[31:17]` reserved, `V = w[16]`, `POS = w[15:0]`. -/
def decodePaint (w : Word) : Decoded :=
  if field w 17 15 = 0#15 then .instr (.paint (field w 0 16) (w.getLsbD 16)) else .reservedBits

/-- FILL's word (R76): `PEAK = w[31:16]`, `BAR = w[15:0]`. -/
def decodeFill (w : Word) : Decoded := .instr (.fill (field w 0 16) (field w 16 16))

/-- FLUSH's word (R77): `[31:0]` reserved. -/
def decodeFlush (w : Word) : Decoded :=
  if field w 0 32 = 0#32 then .instr .flush else .reservedBits

/-- SENDRAW's word (R78): `VALUE = w[31:0]`. -/
def decodeSendraw (w : Word) : Decoded := .instr (.sendraw (field w 0 32))

/-- Decoding, total on every 40-bit word (R80): the opcode first, then the reserved bits. -/
def decode (w : Word) : Decoded :=
  if opField w = 0x01#8 then decodeInit w
  else if opField w = 0x02#8 then decodeClear w
  else if opField w = 0x03#8 then decodePaint w
  else if opField w = 0x04#8 then decodeFill w
  else if opField w = 0x05#8 then decodeFlush w
  else if opField w = 0x06#8 then decodeSendraw w
  else .illegalOpcode

/-- The command word of a command, each pattern bit 39 first (R73 to R78). -/
def encode : Instr → Word
  | .init boards pin => 0x01#8 ++ 0#16 ++ pin ++ boards
  | .clear => 0x02#8 ++ 0#32
  | .paint pos v => 0x03#8 ++ 0#15 ++ BitVec.ofBool v ++ pos
  | .fill bar peak => 0x04#8 ++ peak ++ bar
  | .flush => 0x05#8 ++ 0#32
  | .sendraw value => 0x06#8 ++ value

/-- One row of the opcode table: a word encodes the row's command when `word AND mask = match`. -/
structure Row where
  mnemonic : String
  pattern : Word
  mask : Word
  deriving DecidableEq, Repr

/-- The opcode table, matches and masks as R73 to R78 and spec/opcode_table.json give them. -/
def opcodeTable : List Row :=
  [ ⟨"INIT", 0x0100000000#40, 0xFFFFFF0000#40⟩,
    ⟨"CLEAR", 0x0200000000#40, 0xFFFFFFFFFF#40⟩,
    ⟨"PAINT", 0x0300000000#40, 0xFFFFFE0000#40⟩,
    ⟨"FILL", 0x0400000000#40, 0xFF00000000#40⟩,
    ⟨"FLUSH", 0x0500000000#40, 0xFFFFFFFFFF#40⟩,
    ⟨"SENDRAW", 0x0600000000#40, 0xFF00000000#40⟩ ]

/-- The mnemonic of a command, as the table spells it. -/
def Instr.mnemonic : Instr → String
  | .init _ _ => "INIT"
  | .clear => "CLEAR"
  | .paint _ _ => "PAINT"
  | .fill _ _ => "FILL"
  | .flush => "FLUSH"
  | .sendraw _ => "SENDRAW"

/-- The word matches the row. -/
def Row.matches (r : Row) (w : Word) : Bool := w &&& r.mask == r.pattern

/-- The command the decoder reads from a word numbered as spec/opcode_table.json numbers it; bits at and above
`nbits` are 0. The word arrives whole (R70), so no byte order is involved. -/
def decodeTableWord (nbits w : Nat) : Option Instr :=
  match decode (BitVec.ofNat 40 (w % 2 ^ nbits)) with
  | .instr i => some i
  | .illegalOpcode => none
  | .reservedBits => none

end Sys2Proof
end

