-- ==== Sys2Proof/Machine/State.lean ====
section
/-!
DEFINITION. The state of one controller (10_state.md R37), its value after power-on (70_reset_and_hazards.md R230),
and the reasons a step can stop.
-/

namespace Sys2Proof.Machine

/-- `STATE` (10_state.md R22): 0 = UNINIT, 1 = READY. -/
inductive InitState where
  | uninit
  | ready
  deriving DecidableEq, Repr

/-- A level of the select line: 0 or 1 (10_state.md R26). -/
inductive Level where
  | low
  | high
  deriving DecidableEq, Repr

/-- `SEL` (10_state.md R26): UNDRIVEN, or the level the block drives. -/
inductive SelLine where
  | undriven
  | driven (l : Level)
  deriving DecidableEq, Repr

/-- One event of the output trace (10_state.md R31). -/
inductive Event where
  /-- `SelInit(pin)`: configure line `pin` as an output and drive it high, in one action. -/
  | selInit (pin : BitVec 8)
  /-- `SelDrive(level)`: drive the select line. -/
  | selDrive (l : Level)
  /-- `Tx(byte)`: transfer one 8-bit value over the serial bus. -/
  | tx (b : Byte)
  deriving DecidableEq, Repr

/-- The response of an accepted command (10_state.md R34). -/
inductive Response where
  | ok
  | fail
  | none
  deriving DecidableEq, Repr

/-- Which operation a transfer frame is of: FLUSH, the closing flush of an in-range FILL among them (42_canvas_ops.md
R147), or SENDRAW. -/
inductive FrameSource where
  | flush
  | sendraw
  deriving DecidableEq, Repr

/-- The fault causes that are written (60_exceptions.md R203). -/
inductive FaultCause where
  | illegalOpcode
  | reservedBits
  | notInitialized
  | reinit
  deriving DecidableEq, Repr

/-- The storage of the canvas (20_memory.md R50): cells of address and byte, in canonical form (`Memory.wf`).
An address below 4·BC that is not listed reads as `Memory.unlisted`. Log entry 5. -/
abbrev Memory := List Host.Cell

/-- The state of one controller. -/
structure State where
  /-- The MODEL's own: the command words of the host's program, in order (10_state.md R38, 30_encoding.md R88). Log entry 1. -/
  program : List Word
  /-- The command index `ci` (10_state.md R21): how many commands the block has accepted. -/
  ci : Nat
  /-- `STATE` (R22). -/
  initState : InitState
  /-- `BC`, 4 bits (R23); `none` is the spec's no value. -/
  bc : Option (BitVec 4)
  /-- `SELPIN`, 8 bits (R24); `none` is the spec's no value. -/
  selPin : Option (BitVec 8)
  /-- `CANVAS`, bytes 0 to 4·BC - 1 (R25); `none` where the canvas does not exist. -/
  canvas : Option Memory
  /-- `SEL` (R26). -/
  sel : SelLine
  /-- `OUT`, oldest event first (R31). -/
  out : List Event
  /-- The MODEL's own: which operation each frame of `OUT` is of, oldest first, so that the last FLUSH frame of R30 can be
  told from a SENDRAW frame of as many bytes. No command reads it. Log entry 17. -/
  frameSources : List FrameSource
  /-- The MODEL's own: the responses of the accepted commands, oldest first (R34, 60_exceptions.md R219). Log entry 3. -/
  responses : List Response
  /-- `FAULT.CAUSE`, 3 bits (R27); 0 is no fault. -/
  faultCause : BitVec 3
  /-- `FAULT.WORD`, 40 bits (R28). -/
  faultWord : Word
  deriving DecidableEq, Repr

/-- Power-on reset (70_reset_and_hazards.md R230). No program is presented and no response has been given. -/
def State.reset : State where
  program := []
  ci := 0
  initState := .uninit
  bc := none
  selPin := none
  canvas := none
  sel := .undriven
  out := []
  frameSources := []
  responses := []
  faultCause := 0#3
  faultWord := 0#40

/-- Why a step has no next state. -/
inductive Fault where
  /-- Raised by every step and every command of a block whose FAULT.CAUSE is not 0: it accepts no command
  (60_exceptions.md R202, R208 point 1). Safe: the spec gives such a block no step. -/
  | stuck (cause : BitVec 3)
  /-- Raised by a command that reads BC while it holds no value (93_implementation_defined.md item 17).
  Safe; no state that satisfies R36 raises it. -/
  | boardCountAbsent
  /-- Raised by a command that uses CANVAS while it does not exist (93_implementation_defined.md item 17).
  Safe; no state that satisfies R36 raises it. -/
  | canvasAbsent
  /-- Raised by a byte access at an index that is not below 4·BC (20_memory.md R66). Safe; no state that satisfies
  R36 raises it. -/
  | outsideCanvas (index : Nat)
  deriving DecidableEq, Repr

/-- Why the model gives an instruction no meaning. -/
inductive Refusal where
  /-- Raised by an arm of `exec` whose instruction has no meaning yet; no arm of this model raises it. Safe. -/
  | notModelled (mnemonic : String)
  deriving DecidableEq, Repr

end Sys2Proof.Machine
end

