-- ==== Sys2Proof/Machine/Flags.lean ====
section
/-!
DEFINITION. The block's only flags: the response of an accepted command (10_state.md R29, R34), which goes with the
command index (R21), and the codes of the fault register (60_exceptions.md R203).
-/

namespace Sys2Proof.Machine

/-- The code of a cause in `FAULT.CAUSE` (60_exceptions.md R203). -/
def FaultCause.code : FaultCause → BitVec 3
  | .illegalOpcode => 1#3
  | .reservedBits => 2#3
  | .notInitialized => 3#3
  | .reinit => 4#3

/-- Accept the command: its response goes out, and `ci` advances by exactly 1 (R21, R34). -/
def accept (r : Response) (s : State) : State :=
  { s with responses := s.responses ++ [r], ci := s.ci + 1 }

/-- Write the fault register (R202): `FAULT.CAUSE` and `FAULT.WORD`, nothing else. -/
def recordFault (cause : FaultCause) (w : Word) (s : State) : State :=
  { s with faultCause := cause.code, faultWord := w }

end Sys2Proof.Machine
end

