-- ==== Sys2Proof/Machine/Operands.lean ====
section
/-!
DEFINITION. What the commands compute from their operands: the index mapper (41_mapping.md), FILL's partial mask
(42_canvas_ops.md R143) and SENDRAW's bytes (43_serializer.md R172). All exact natural arithmetic (R130).
-/

namespace Sys2Proof.Machine

/-- The 0-based mapping: `phys0(L) = L + 2 × (L div 30)` (41_mapping.md R120). -/
def phys0 (L : Nat) : Nat := L + 2 * (L / 30)

/-- The 1-based mapping (41_mapping.md R123); `adj1(0) = 0` by 90_conflicts.md C2. -/
def adj1 (bar : Nat) : Nat := if bar = 0 then 0 else bar + 2 * ((bar - 1) / 30)

/-- The range test of the 0-based mapping for `boards` boards (R121). -/
def phys0InRange (boards L : Nat) : Bool := decide (phys0 L < 32 * boards)

/-- The range test of the 1-based mapping for `boards` boards (R124). -/
def adj1InRange (boards bar : Nat) : Bool := decide (adj1 bar ≤ 32 * boards)

/-- FILL's partial byte: `(1 << k) - 1` (R143). -/
def lowMask (k : Nat) : Byte := BitVec.ofNat 8 (2 ^ k - 1)

/-- A byte with bit `k` set to `v` and its other bits unchanged (00_scope.md R15, BitWrite). -/
def setBit (b : Byte) (k : Nat) (v : Bool) : Byte :=
  if v then b ||| (1#8 <<< k) else b &&& ~~~(1#8 <<< k)

/-- The four bytes of a SENDRAW value, most significant first (R172). -/
def rawBytes (value : BitVec 32) : List Byte :=
  [value.extractLsb' 24 8, value.extractLsb' 16 8, value.extractLsb' 8 8, value.extractLsb' 0 8]

end Sys2Proof.Machine
end

