-- ==== Sys2Proof/Machine/Ops.lean ====
section
/-!
DEFINITION. The named operations the commands share: canvas storage, events, the gates of 60_exceptions.md R208,
and raising a fault (R202), which is the block's only trap-like action (R210). There is no trap return (R211).
-/

namespace Sys2Proof.Machine

/-! ### Canvas storage -/

/-- What an address of the canvas that no cell lists reads as: 0x00, the value INIT writes (40_init.md R100). -/
def Memory.unlisted : Byte := 0x00#8

/-- The canonical form of the cells from address `lo` on: addresses strictly rising, no cell holding `unlisted`. -/
def Memory.wfFrom : Nat → Memory → Bool
  | _, [] => true
  | lo, (a, b) :: m => decide (lo ≤ a) && (b != Memory.unlisted) && Memory.wfFrom (a + 1) m

/-- The canonical form: equal canvases are equal data. -/
def Memory.wf (m : Memory) : Bool := Memory.wfFrom 0 m

/-- The byte at an address (00_scope.md R15, MemRead). -/
def Memory.read : Memory → Nat → Byte
  | [], _ => Memory.unlisted
  | (b, v) :: m, a => if b = a then v else Memory.read m a

/-- Drop every cell of an address. -/
def Memory.erase : Memory → Nat → Memory
  | [], _ => []
  | (b, v) :: m, a => if b = a then Memory.erase m a else (b, v) :: Memory.erase m a

/-- Put a cell before the first cell of a higher address. -/
def Memory.insert : Memory → Nat → Byte → Memory
  | [], a, v => [(a, v)]
  | (b, u) :: m, a, v => if a < b then (a, v) :: (b, u) :: m else (b, u) :: Memory.insert m a v

/-- Set one byte (00_scope.md R15, MemWrite), keeping the canonical form. -/
def Memory.write (m : Memory) (a : Nat) (v : Byte) : Memory :=
  if v = Memory.unlisted then m.erase a else (m.erase a).insert a v

/-- `for i in 0 .. n - 1: CANVAS[i] <- v`. -/
def Memory.writeBelow (m : Memory) : Nat → Byte → Memory
  | 0, _ => m
  | n + 1, v => (Memory.writeBelow m n v).write n v

/-- `BitWrite(p, v)` (00_scope.md R15, 20_memory.md R51): bit `p mod 8` of byte `p div 8`. -/
def Memory.bitWrite (m : Memory) (p : Nat) (v : Bool) : Memory :=
  m.write (p / 8) (setBit (m.read (p / 8)) (p % 8) v)

/-- The first `n` bytes, byte 0 first. -/
def Memory.bytes (m : Memory) (n : Nat) : List Byte := (List.range n).map m.read

/-- The bytes of a FLUSH frame, in transmission order: index 4·BC - 1 down to 0 (43_serializer.md R170, R176). -/
def Memory.frameBytes (m : Memory) (boards : Nat) : List Byte := (m.bytes (4 * boards)).reverse

/-- Set or clear the bit of one logical LED; out of range nothing changes (42_canvas_ops.md R141, 41_mapping.md R121). -/
def Memory.paint (m : Memory) (boards L : Nat) (v : Bool) : Memory :=
  if phys0InRange boards L then m.bitWrite (phys0 L) v else m

/-- The canvas bytes of an in-range FILL before its peak (42_canvas_ops.md R143): the clear, the whole bytes below
`a div 8`, the partial byte, where `a = adj1(bar)`. -/
def Memory.drawBar (m : Memory) (boards a : Nat) : Memory :=
  (((m.writeBelow (4 * boards) 0x00#8).writeBelow (a / 8) 0xFF#8).write (a / 8) (lowMask (a % 8)))

/-- FILL's peak: the 0-based position `peak - 1` lit, nothing where `peak` is 0 or out of range (R143, R145). -/
def Memory.drawPeak (m : Memory) (boards peak : Nat) : Memory :=
  if peak = 0 then m else m.paint boards (peak - 1) true

/-! ### Registers -/

/-- Put a canvas in place. -/
def setCanvas (m : Memory) (s : State) : State := { s with canvas := some m }

/-! ### Events (10_state.md R31) -/

/-- Append an event to `OUT`. -/
def emit (e : Event) (s : State) : State := { s with out := s.out ++ [e] }

/-- Drive the select line: the event, and `SEL`. -/
def driveSel (l : Level) (s : State) : State := { emit (.selDrive l) s with sel := .driven l }

/-- Hand bytes to the transmit collaborator, in order. -/
def transmitBytes : List Byte → State → State
  | [], s => s
  | b :: bs, s => transmitBytes bs (emit (.tx b) s)

/-- Record which operation the next frame is of (10_state.md R30; log entry 17). -/
def noteFrame (src : FrameSource) (s : State) : State := { s with frameSources := s.frameSources ++ [src] }

/-- One transfer frame (43_serializer.md R174): `SelDrive(0)`, the bytes, `SelDrive(1)`. -/
def transferFrame (src : FrameSource) (bs : List Byte) (s : State) : State :=
  driveSel .high (transmitBytes bs (driveSel .low (noteFrame src s)))

/-- The configuration a successful INIT makes (40_init.md R100): BC, SELPIN, a zeroed canvas of 4·boards bytes,
`SelInit(pin)`, `SEL` 1, READY. -/
def configure (boards pin : BitVec 8) (s : State) : State :=
  let s := { s with bc := some (boards.setWidth 4), selPin := some pin }
  let s := setCanvas (Memory.writeBelow [] (4 * boards.toNat) 0x00#8) s
  let s := emit (.selInit pin) s
  { s with sel := .driven .high, initState := .ready }

/-! ### Gates and faults -/

/-- The sticky check, first in R208: a faulted block accepts no command. -/
def unlessStuck (s : State) (k : Host.Outcome State Fault Refusal) : Host.Outcome State Fault Refusal :=
  if s.faultCause = 0#3 then k else .fault (.stuck s.faultCause)

/-- Raise a fault (60_exceptions.md R202): where none is recorded, the next state has the fault register written and
nothing else changed. -/
def raiseFault (cause : FaultCause) (w : Word) (s : State) : Host.Outcome State Fault Refusal :=
  unlessStuck s (.next (recordFault cause w s))

/-- The gates of every command but INIT: stuck, then `NOT_INITIALIZED` in UNINIT (R206, R208). The word recorded is
the command's own (log entry 14). -/
def whenReady (i : Instr) (s : State) (k : Host.Outcome State Fault Refusal) : Host.Outcome State Fault Refusal :=
  unlessStuck s
    (match s.initState with
     | .uninit => raiseFault .notInitialized (encode i) s
     | .ready => k)

/-- The gates of INIT: stuck, then `REINIT` in READY (R207, R208). -/
def whenUninit (i : Instr) (s : State) (k : Host.Outcome State Fault Refusal) : Host.Outcome State Fault Refusal :=
  unlessStuck s
    (match s.initState with
     | .uninit => k
     | .ready => raiseFault .reinit (encode i) s)

/-- Read BC and the canvas; reading one that holds no value is a fault (93_implementation_defined.md item 17). -/
def withCanvas (s : State) (k : Nat → Memory → Host.Outcome State Fault Refusal) :
    Host.Outcome State Fault Refusal :=
  match s.bc with
  | none => .fault .boardCountAbsent
  | some b =>
    match s.canvas with
    | none => .fault .canvasAbsent
    | some m => k b.toNat m

/-- The byte index is one of the canvas (20_memory.md R66). -/
def withinCanvas (boards index : Nat) (k : Host.Outcome State Fault Refusal) : Host.Outcome State Fault Refusal :=
  if index < 4 * boards then k else .fault (.outsideCanvas index)

end Sys2Proof.Machine
end

