-- ==== Sys2Proof/Machine/Canvas.lean ====
section
/-!
DEFINITION. CLEAR, PAINT and FILL (42_canvas_ops.md R140 to R147).
-/

namespace Sys2Proof.Machine

/-- CLEAR (R140): every canvas byte becomes 0x00; no event. -/
def execClear (s : State) : Host.Outcome State Fault Refusal :=
  whenReady .clear s
    (withCanvas s fun boards m => .next (accept .none (setCanvas (m.writeBelow (4 * boards) 0x00#8) s)))

/-- PAINT (R141): the bit at `phys0(pos)` becomes `v`, where that is in range; no event. The byte index is then one
of the canvas (41_mapping.md R126 c). -/
def execPaint (pos : BitVec 16) (v : Bool) (s : State) : Host.Outcome State Fault Refusal :=
  whenReady (.paint pos v) s
    (withCanvas s fun boards m => .next (accept .none (setCanvas (m.paint boards pos.toNat v) s)))

/-- FILL (R143): out of range nothing happens (90_conflicts.md C4); in range the bar and the peak are drawn on a
cleared canvas, and the canvas is sent as one frame, a FLUSH frame (R147). -/
def execFill (bar peak : BitVec 16) (s : State) : Host.Outcome State Fault Refusal :=
  whenReady (.fill bar peak) s
    (withCanvas s fun boards m =>
      if adj1InRange boards bar.toNat then
        withinCanvas boards (adj1 bar.toNat / 8)
          (let drawn := (m.drawBar boards (adj1 bar.toNat)).drawPeak boards peak.toNat
           .next (accept .none (transferFrame .flush (drawn.frameBytes boards) (setCanvas drawn s))))
      else .next (accept .none s))

end Sys2Proof.Machine
end

