-- ==== Sys2Proof/Machine/Init.lean ====
section
/-!
DEFINITION. INIT (40_init.md R100 to R106).
-/

namespace Sys2Proof.Machine

/-- INIT under a value of `ALLOC_MAY_FAIL` and a draw (R100, R102): in UNINIT a count outside 1..8 responds `FAIL` and
changes nothing else (R101), and so does a failed draw where allocation may fail; otherwise the block is configured
and responds `OK`. The draw is read at this command's index, so every INIT has its own. -/
def initUnder (mayFail : Bool) (draw : Nat → Config.AllocOutcome) (boards pin : BitVec 8) (s : State) :
    Host.Outcome State Fault Refusal :=
  whenUninit (.init boards pin) s
    (if boards.toNat < Config.minBoards ∨ Config.maxBoards < boards.toNat then .next (accept .fail s)
     else if mayFail = true ∧ draw s.ci = .failed then .next (accept .fail s)
     else .next (accept .ok (configure boards pin s)))

/-- INIT (R100), with the spec's value of `ALLOC_MAY_FAIL`. -/
def execInit (boards pin : BitVec 8) (s : State) : Host.Outcome State Fault Refusal :=
  initUnder Config.allocMayFail Config.allocDraw boards pin s

end Sys2Proof.Machine
end

