-- ==== Sys2Proof/Machine/Serializer.lean ====
section
/-!
DEFINITION. FLUSH and SENDRAW (43_serializer.md R170 to R176).
-/

namespace Sys2Proof.Machine

/-- FLUSH (R170): one frame of the canvas bytes, last byte first. The canvas is not changed (R171). -/
def execFlush (s : State) : Host.Outcome State Fault Refusal :=
  whenReady .flush s
    (withCanvas s fun boards m => .next (accept .none (transferFrame .flush (m.frameBytes boards) s)))

/-- SENDRAW (R172): one frame of the value's four bytes, most significant first, at every board count (R173). -/
def execSendraw (value : BitVec 32) (s : State) : Host.Outcome State Fault Refusal :=
  whenReady (.sendraw value) s (.next (accept .none (transferFrame .sendraw (rawBytes value) s)))

end Sys2Proof.Machine
end

