-- ==== Sys2Proof/Machine/Dispatch.lean ====
section
/-!
DEFINITION. One arm for each command.
-/

namespace Sys2Proof.Machine

/-- The meaning of a decoded command (60_exceptions.md R208, points 1 and 4 to 6). -/
def exec (i : Instr) (s : State) : Host.Outcome State Fault Refusal :=
  match i with
  | .init boards pin => Sys2Proof.Machine.execInit boards pin s
  | .clear => Sys2Proof.Machine.execClear s
  | .paint pos v => Sys2Proof.Machine.execPaint pos v s
  | .fill bar peak => Sys2Proof.Machine.execFill bar peak s
  | .flush => Sys2Proof.Machine.execFlush s
  | .sendraw value => Sys2Proof.Machine.execSendraw value s

end Sys2Proof.Machine
end

