-- ==== Sys2Proof/Machine/Port.lean ====
section
/-!
DEFINITION. The command port (10_state.md R32): which word the host presents, and how words come onto the port.
-/

namespace Sys2Proof.Machine

/-- The word on the command port: the program's word at the command index; none where every word of the program has
been accepted. -/
def presented (s : State) : Option Word := s.program[s.ci]?

/-- The list with `w` at index `n`; positions before it that the list lacks are filled with the all-zero word. -/
def placeWord : List Word → Nat → Word → List Word
  | [], 0, w => [w]
  | [], n + 1, w => 0#40 :: placeWord [] n w
  | _ :: ws, 0, w => w :: ws
  | u :: ws, n + 1, w => u :: placeWord ws n w

/-- The host adds a word to the end of its program (10_state.md R32, 60_exceptions.md R218). -/
def State.present (s : State) (w : Word) : State := { s with program := s.program ++ [w] }

/-- A block with nothing on its port waits (70_reset_and_hazards.md R230: "the block waits for its first command").
Log entry 2. -/
def wait (s : State) : Host.Outcome State Fault Refusal := unlessStuck s (.next s)

/-- The word `w` on the port, `nbits` of its bits read and the rest 0. -/
def placeTableWord (s : State) (nbits w : Nat) : State :=
  { s with program := placeWord s.program s.ci (BitVec.ofNat 40 (w % 2 ^ nbits)) }

end Sys2Proof.Machine
end

