-- ==== Sys2Proof/Machine/Step.lean ====
section
/-!
DEFINITION. One step: the block takes the word on its command port (60_exceptions.md R208).
-/

namespace Sys2Proof.Machine

/-- One step. A word that decodes to no command raises its decode fault; a command runs; with no word presented the
block waits. Every branch checks first that the block is not stuck. -/
def step (s : State) : Host.Outcome State Fault Refusal :=
  match presented s with
  | none => wait s
  | some w =>
    match decode w with
    | .illegalOpcode => raiseFault .illegalOpcode w s
    | .reservedBits => raiseFault .reservedBits w s
    | .instr i => exec i s

/-- The state with a table word on the command port, so that the next step runs it. -/
def State.withFetchWord (s : State) (nbits w : Nat) : State := placeTableWord s nbits w

end Sys2Proof.Machine
end

