-- ==== Sys2Proof/Machine/Asm.lean ====
section
/-!
DEFINITION. The assembler (30_encoding.md R85, R86): one command per line, lower-case mnemonics, operands separated by
commas, `;` starting a comment. It is no part of a step.
-/

namespace Sys2Proof.Machine

/-- A line of assembly, the pseudo-instructions of R86 among them. -/
inductive AsmLine where
  /-- `init` -/
  | initBare
  /-- `init BOARDS` -/
  | initBoards (boards : Nat)
  /-- `init BOARDS, PIN` -/
  | init (boards pin : Nat)
  | clear
  /-- `paint POS, V` -/
  | paint (pos v : Nat)
  /-- `fill BAR` -/
  | fillBar (bar : Nat)
  /-- `fill BAR, PEAK` -/
  | fill (bar peak : Nat)
  | flush
  | sendraw (value : Nat)
  deriving DecidableEq, Repr

/-- A line's operation, its pseudo-instruction expanded (R86) with `SEL_PIN_DEFAULT`. -/
def AsmLine.expand (selPinDefault : BitVec 8) : AsmLine → Call
  | .initBare => .init Config.boardsDefault selPinDefault.toNat
  | .initBoards boards => .init boards selPinDefault.toNat
  | .init boards pin => .init boards pin
  | .clear => .clear
  | .paint pos v => .paint pos v
  | .fillBar bar => .fill bar 0
  | .fill bar peak => .fill bar peak
  | .flush => .flush
  | .sendraw value => .sendraw value

/-- The word of a line; none where an operand does not fit its field (R85). -/
def AsmLine.assemble (selPinDefault : BitVec 8) (l : AsmLine) : Option Word :=
  ((l.expand selPinDefault).toInstr).map encode

/-! ### The text of a line. Log entry 10 -/

/-- A blank of the text. -/
def isBlank (c : Char) : Bool := c == ' ' || c == '\t'

/-- The text without blanks at its two ends. -/
def trimBlanks (cs : List Char) : List Char :=
  ((cs.dropWhile isBlank).reverse.dropWhile isBlank).reverse

/-- The pieces of the text between its commas. -/
def splitCommas : List Char → List (List Char)
  | [] => [[]]
  | c :: cs =>
    if c = ',' then [] :: splitCommas cs
    else
      match splitCommas cs with
      | [] => [[c]]
      | p :: ps => (c :: p) :: ps

/-- The value of a digit in decimal or hexadecimal. -/
def digitValue (c : Char) : Option Nat :=
  if '0'.toNat ≤ c.toNat ∧ c.toNat ≤ '9'.toNat then some (c.toNat - '0'.toNat)
  else if 'a'.toNat ≤ c.toNat ∧ c.toNat ≤ 'f'.toNat then some (c.toNat - 'a'.toNat + 10)
  else if 'A'.toNat ≤ c.toNat ∧ c.toNat ≤ 'F'.toNat then some (c.toNat - 'A'.toNat + 10)
  else none

/-- The number the digits write in a base, after `acc`. -/
def digitsFrom (base : Nat) : Nat → List Char → Option Nat
  | acc, [] => some acc
  | acc, c :: cs =>
    match digitValue c with
    | none => none
    | some d => if d < base then digitsFrom base (base * acc + d) cs else none

/-- A number: `0x` and hexadecimal digits, or decimal digits (R85). -/
def parseNumber : List Char → Option Nat
  | [] => none
  | '0' :: 'x' :: [] => none
  | '0' :: 'x' :: c :: cs => digitsFrom 16 0 (c :: cs)
  | c :: cs => digitsFrom 10 0 (c :: cs)

/-- A Boolean operand: `0`, `1`, `false` or `true` (R85). -/
def parseBoolean (cs : List Char) : Option Nat :=
  if cs = ['0'] ∨ cs = ['f', 'a', 'l', 's', 'e'] then some 0
  else if cs = ['1'] ∨ cs = ['t', 'r', 'u', 'e'] then some 1
  else none

/-- The line of a mnemonic and its operands. -/
def parseCommand (mnemonic : List Char) (operands : List (List Char)) : Option AsmLine :=
  if mnemonic = ['i', 'n', 'i', 't'] then
    match operands with
    | [] => some .initBare
    | [b] => (parseNumber b).map .initBoards
    | [b, p] => (parseNumber b).bind (fun b => (parseNumber p).map (.init b))
    | _ => none
  else if mnemonic = ['c', 'l', 'e', 'a', 'r'] then
    match operands with
    | [] => some .clear
    | _ => none
  else if mnemonic = ['p', 'a', 'i', 'n', 't'] then
    match operands with
    | [p, v] => (parseNumber p).bind (fun p => (parseBoolean v).map (.paint p))
    | _ => none
  else if mnemonic = ['f', 'i', 'l', 'l'] then
    match operands with
    | [b] => (parseNumber b).map .fillBar
    | [b, k] => (parseNumber b).bind (fun b => (parseNumber k).map (.fill b))
    | _ => none
  else if mnemonic = ['f', 'l', 'u', 's', 'h'] then
    match operands with
    | [] => some .flush
    | _ => none
  else if mnemonic = ['s', 'e', 'n', 'd', 'r', 'a', 'w'] then
    match operands with
    | [v] => (parseNumber v).map .sendraw
    | _ => none
  else none

/-- What one line of text holds. -/
inductive AsmText where
  /-- Blanks or a comment only. -/
  | empty
  | command (l : AsmLine)
  /-- No line of R85 or R86. -/
  | malformed
  deriving DecidableEq, Repr

/-- Read one line of text (R85). -/
def parseLine (text : List Char) : AsmText :=
  let body := trimBlanks (text.takeWhile (fun c => c != ';'))
  let mnemonic := body.takeWhile (fun c => !isBlank c)
  let rest := trimBlanks (body.dropWhile (fun c => !isBlank c))
  let operands := if rest = [] then [] else (splitCommas rest).map trimBlanks
  if body = [] then .empty
  else
    match parseCommand mnemonic operands with
    | none => .malformed
    | some l => .command l

/-- Assemble a listing, one line after another (30_encoding.md R88); none where a line is refused. -/
def assembleLines (selPinDefault : BitVec 8) : List (List Char) → Option (List Word)
  | [] => some []
  | t :: ts =>
    match parseLine t, assembleLines selPinDefault ts with
    | .empty, some ws => some ws
    | .command l, some ws => (l.assemble selPinDefault).map (fun w => w :: ws)
    | .malformed, _ => none
    | _, none => none

/-- The assembler of this platform (R86, D12): its default select line is the open parameter. -/
def assembleListing (lines : List (List Char)) : Option (List Word) :=
  assembleLines Config.selPinDefault lines

end Sys2Proof.Machine
end

