-- ==== Sys2Proof/Machine/Observe.lean ====
section
/-!
DEFINITION. What a model observes of a controller (60_exceptions.md R216, R219; 10_state.md R30). Nothing here is read by
a command.
-/

namespace Sys2Proof.Machine

/-! ### The canvas (20_memory.md R50 to R53) -/

/-- The canvas byte at an index; none where no such byte exists (20_memory.md R66). -/
def State.canvasByte (s : State) (i : Nat) : Option Byte :=
  match s.bc, s.canvas with
  | some b, some m => if i < 4 * b.toNat then some (m.read i) else none
  | _, _ => none

/-- The canvas bit at a physical position (20_memory.md R51). -/
def State.canvasBit (s : State) (p : Nat) : Option Bool :=
  (s.canvasByte (p / 8)).map (fun b => b.getLsbD (p % 8))

/-- The canvas, byte 0 first; none where it does not exist. -/
def State.canvasBytes (s : State) : Option (List Byte) :=
  match s.bc, s.canvas with
  | some b, some m => some (m.bytes (4 * b.toNat))
  | _, _ => none

/-- Bytes read as one number, the first the least significant (20_memory.md R53). -/
def bytesNumber : List Byte → Nat
  | [] => 0
  | b :: bs => b.toNat + 256 * bytesNumber bs

/-- The `n` bytes of a number, most significant first (20_memory.md R54). -/
def numberBytes (n N : Nat) : List Byte :=
  ((List.range n).map (fun i => BitVec.ofNat 8 (N / 2 ^ (8 * i)))).reverse

/-! ### The output trace (10_state.md R31) -/

/-- The events of one transfer frame (43_serializer.md R174). -/
def frameEvents (bs : List Byte) : List Event :=
  .selDrive .low :: (bs.map .tx ++ [.selDrive .high])

/-- The bytes of each complete frame of a trace; `cur` is what the open frame has sent. -/
def framesFrom : Option (List Byte) → List Event → List (List Byte)
  | _, [] => []
  | _, .selInit _ :: es => framesFrom none es
  | _, .selDrive .low :: es => framesFrom (some []) es
  | none, .selDrive .high :: es => framesFrom none es
  | some bs, .selDrive .high :: es => bs :: framesFrom none es
  | none, .tx _ :: es => framesFrom none es
  | some bs, .tx b :: es => framesFrom (some (bs ++ [b])) es

/-- The bytes of each frame sent so far, oldest first. -/
def State.frames (s : State) : List (List Byte) := framesFrom none s.out

/-- The level the events of a trace leave on the select line, from `l` (10_state.md R31, R35). -/
def lineAfter : SelLine → List Event → SelLine
  | l, [] => l
  | _, .selInit _ :: es => lineAfter (.driven .high) es
  | _, .selDrive l :: es => lineAfter (.driven l) es
  | l, .tx _ :: es => lineAfter l es

/-- The number of `Tx` events of a trace (70_reset_and_hazards.md R239 counts them). -/
def txCount : List Event → Nat
  | [] => 0
  | .tx _ :: es => txCount es + 1
  | .selInit _ :: es => txCount es
  | .selDrive _ :: es => txCount es

/-- The frames with the operation each is of, oldest first. -/
def State.sourcedFrames (s : State) : List (FrameSource × List Byte) := s.frameSources.zip s.frames

/-- The bytes of the last FLUSH frame of `OUT` (10_state.md R30); none before the first. -/
def State.lastFlushFrame (s : State) : Option (List Byte) :=
  ((s.sourcedFrames.filter (fun f => f.1 == .flush)).getLast?).map (fun f => f.2)

/-- "Flushed" as a predicate (10_state.md R30): the canvas is the bytes of the last FLUSH frame, in reverse. -/
def State.flushed (s : State) : Bool :=
  match s.canvasBytes, s.lastFlushFrame with
  | some bs, some f => bs == f.reverse
  | _, _ => false

/-! ### End of a run (60_exceptions.md R219) -/

/-- Every word of the program has been accepted with no fault recorded. -/
def State.complete (s : State) : Bool := decide (s.faultCause = 0#3) && (presented s).isNone

/-- A fault is recorded. -/
def State.stuckEnd (s : State) : Bool := decide (s.faultCause ≠ 0#3)

end Sys2Proof.Machine
end

