-- ==== Sys2Proof/Machine/Chain.lean ====
section
/-!
DEFINITION. The chain of LED boards (43_serializer.md R185): an observation that follows the events of `OUT`. It is
outside the block (10_state.md R38) and no command reads it. Log entry 11.
-/

namespace Sys2Proof.Machine

/-! ### The boards' registers -/

/-- The chain's registers, byte by byte: board `k` holds bytes `4k` to `4k + 3` (20_memory.md R52), and board 0 is the
nearest. A byte that is `none` may be any value (93_implementation_defined.md items 7 and 8). -/
structure Chain where
  /-- The bytes taken since the select line went low; none while the line is not low. -/
  window : Option Nat
  /-- The shift registers. -/
  shift : List (Option Byte)
  /-- The output latches, which drive the LEDs. -/
  latch : List (Option Byte)
  deriving DecidableEq, Repr

/-- Registers the spec settles nothing of. -/
def unsettledBytes (boards : Nat) : List (Option Byte) := List.replicate (4 * boards) none

/-- A chain before its first frame (93_implementation_defined.md item 8). -/
def Chain.unsettled (boards : Nat) : Chain := ⟨none, unsettledBytes boards, unsettledBytes boards⟩

/-- What one event does to a chain of `boards` boards. A byte pushes every byte of the shift registers one place on,
so the first byte sent ends furthest (R185). The rising edge latches them (10_state.md R35); after a window that did not
fill the chain the source settles nothing (R185, 93_implementation_defined.md item 7). INIT leaves the boards as they
are (70_reset_and_hazards.md R234). -/
def Chain.apply (boards : Nat) (c : Chain) : Event → Chain
  | .selInit _ => { c with window := none }
  | .selDrive .low => { c with window := some (c.window.getD 0) }
  | .tx b => { c with window := c.window.map (· + 1), shift := (some b :: c.shift).dropLast }
  | .selDrive .high =>
    match c.window with
    | none => c
    | some n => if n = 4 * boards then { c with window := none, latch := c.shift } else Chain.unsettled boards

/-- The chain of exactly BC boards after the events of `OUT`; none before INIT has set BC. -/
def State.chain (s : State) : Option Chain :=
  s.bc.map (fun b => s.out.foldl (Chain.apply b.toNat) (Chain.unsettled b.toNat))

/-- Bytes that are all settled. -/
def settled : List (Option Byte) → Option (List Byte)
  | [] => some []
  | none :: _ => none
  | some b :: bs => (settled bs).map (b :: ·)

/-- The bytes the output latches hold, board 0's byte 0 first; none where the spec settles nothing. -/
def State.display (s : State) : Option (List Byte) := s.chain.bind (fun c => settled c.latch)

/-! ### From serial bits to cells

The bit order and the placement are parameters (00_scope.md R12, 93_implementation_defined.md items 6 and 9): every
observation below takes them as arguments, and no value of either is a fact of the model. -/

/-- Which bit of a byte goes over the wire as serial bit `n`, the first being 0. -/
def sentBit : Config.BitOrder → Nat → Nat
  | .lsbFirst, n => n
  | .msbFirst, n => 7 - n

/-- The serial bits of one byte under a bit order, the first sent first. -/
def serialBits (order : Config.BitOrder) (b : Byte) : List Bool :=
  (List.range 8).map (fun n => b.getLsbD (sentBit order n))

/-- The placement: `place j n` is the register cell of a board in which serial bit `n` of the board's byte `j` lands. -/
abbrev Placement := Nat → Nat → Nat

/-- The constraint of R185 on a placement under a bit order. Serial bit `n` of a board's byte `j` is the bit of physical
position `8j + sentBit order n` within the board (20_memory.md R51, R52). Where that is one of the cells 0 to 29, which
drive LEDs, the bit lands there; the two padding bits land in no LED's cell. -/
abbrev Placement.Fits (order : Config.BitOrder) (place : Placement) : Prop :=
  ∀ j, j < 4 → ∀ n, n < 8 →
    if 8 * j + sentBit order n < 30 then place j n = 8 * j + sentBit order n else 30 ≤ place j n

/-- The serial bits that land in cell `c` of a board: serial bit `q mod 8` of byte `q div 8` is counted as `q`. -/
def landing (place : Placement) (c : Nat) : List Nat :=
  (List.range 32).filter (fun q => place (q / 8) (q % 8) == c)

/-- What drives cell `c` of board `k`: the latched serial bit placed there. None where the byte is not settled, and where
no serial bit, or more than one, is placed in the cell. -/
def Chain.cell (order : Config.BitOrder) (place : Placement) (ch : Chain) (k c : Nat) : Option Bool :=
  match landing place c with
  | [q] => (ch.latch[4 * k + q / 8]?).join.bind (fun b => (serialBits order b)[q % 8]?)
  | _ => none

/-- What cell `c` of board `k` shows (R185). -/
def State.cellShown (s : State) (order : Config.BitOrder) (place : Placement) (k c : Nat) : Option Bool :=
  s.chain.bind (fun ch => ch.cell order place k c)

/-- What the LED at logical position `L` shows: its physical position is `phys0 L` (R185). -/
def State.ledShown (s : State) (order : Config.BitOrder) (place : Placement) (L : Nat) : Option Bool :=
  s.cellShown order place (phys0 L / 32) (phys0 L % 32)

end Sys2Proof.Machine
end

