-- ==== Sys2Proof/Machine/Instances.lean ====
section
/-!
DEFINITION. Several controller instances (60_exceptions.md R215): each has a state of its own and none is shared.
-/

namespace Sys2Proof.Machine

/-- One step of instance `k` of several; an index with no instance has no step, and nothing changes. -/
def stepInstance (ss : List State) (k : Nat) : Host.Outcome (List State) Fault Refusal :=
  match ss[k]? with
  | none => .next ss
  | some s =>
    match step s with
    | .next t => .next (ss.set k t)
    | .fault f => .fault f
    | .refused r => .refused r

end Sys2Proof.Machine
end

