-- ==== Sys2Proof/Safety.lean ====
section
/-!
DEFINITION. What holds of every state a controller can be in, and what counts as a safe outcome of a step.
-/

namespace Sys2Proof.Machine

/-- 10_state.md R36, with the canonical form of the stored canvas: in READY, BC is 1 to 8 and a canvas of 4·BC bytes
exists; in UNINIT, BC, SELPIN and CANVAS hold no value. -/
def State.CanvasInv (s : State) : Prop :=
  match s.initState with
  | .uninit => s.bc = none ∧ s.selPin = none ∧ s.canvas = none
  | .ready =>
    ∃ b pin m, s.bc = some b ∧ s.selPin = some pin ∧ s.canvas = some m ∧ 1 ≤ b.toNat ∧ b.toNat ≤ 8 ∧
      m.wf = true ∧ ∀ c ∈ m, c.1 < 4 * b.toNat

/-- 10_state.md R26, 70_reset_and_hazards.md R240: between commands the select line is high in READY and undriven in
UNINIT, which is the level the events of `OUT` leave on it. -/
def State.SelInv (s : State) : Prop :=
  s.sel = lineAfter .undriven s.out ∧
    s.sel = (match s.initState with
      | .uninit => .undriven
      | .ready => .driven .high)

/-- The bytes of a frame: 4·BC of a FLUSH frame, 4 of SENDRAW's (43_serializer.md R170, R172). -/
def frameLength (boards : Nat) : FrameSource → Nat
  | .flush => 4 * boards
  | .sendraw => 4

/-- 43_serializer.md R174, 40_init.md R104: `OUT` is empty in UNINIT; in READY it is `SelInit(SELPIN)` and then whole
transfer frames, each of 4·BC bytes where it is a FLUSH frame and of 4 where it is SENDRAW's (R170, R172), and
`frameSources` says which is which (log entry 17). -/
def State.TraceInv (s : State) : Prop :=
  match s.initState with
  | .uninit => s.out = [] ∧ s.frameSources = []
  | .ready =>
    ∃ (b : BitVec 4) (pin : BitVec 8) (fs : List (FrameSource × List Byte)), s.bc = some b ∧ s.selPin = some pin ∧
      s.out = .selInit pin :: fs.flatMap (fun f => frameEvents f.2) ∧ s.frameSources = fs.map (fun f => f.1) ∧
      ∀ f ∈ fs, f.2.length = frameLength b.toNat f.1

/-- 10_state.md R27, R28, 60_exceptions.md R203, R206, R207: codes 5 to 7 are never written, the fault word is 0 until a
fault is recorded, and the cause agrees with the state it was raised in. -/
def State.FaultInv (s : State) : Prop :=
  s.faultCause.toNat ≤ 4 ∧ (s.faultCause = 0#3 → s.faultWord = 0#40) ∧
    (s.faultCause = FaultCause.notInitialized.code → s.initState = .uninit) ∧
    (s.faultCause = FaultCause.reinit.code → s.initState = .ready)

/-- 10_state.md R21, R34: one response for each accepted command, and no more accepted than presented. -/
def State.PortInv (s : State) : Prop :=
  s.responses.length = s.ci ∧ s.ci ≤ s.program.length

/-- The invariant of a controller. -/
def State.Inv (s : State) : Prop :=
  s.CanvasInv ∧ s.SelInv ∧ s.TraceInv ∧ s.FaultInv ∧ s.PortInv

/-- A safe outcome of a step: a next state, or the stop of a block that has recorded a fault (60_exceptions.md R202). -/
def safeOutcome (s : State) (o : Host.Outcome State Fault Refusal) : Prop :=
  match o with
  | .next _ => True
  | .fault f => s.faultCause ≠ 0#3 ∧ f = .stuck s.faultCause
  | .refused _ => False

end Sys2Proof.Machine
end

