-- ==== Sys2Proof/Certificates/Slice0/Obligations.lean ====
section
/-!
DEFINITION. The statements for the provers, each with the rules of spec/ it formalises.
-/

open Sys2Proof Sys2Proof.Machine

/-! ### Reset and the machine's invariants -/

/-- 70_reset_and_hazards.md R230: every value of the table of the state after power-on. -/
def Obligations.ResetValues : Prop :=
  State.reset.initState = .uninit ∧ State.reset.bc = none ∧ State.reset.selPin = none ∧ State.reset.canvas = none ∧
    State.reset.sel = .undriven ∧ State.reset.out = [] ∧ State.reset.faultCause = 0#3 ∧
    State.reset.faultWord = 0#40 ∧ State.reset.ci = 0

/-- The state after power-on satisfies the invariant of `StepKeepsInvariant` (R36, R230). Its last clause speaks of the
model's own fields `program` and `responses` (log entries 1 and 3). -/
def Obligations.ResetSatisfiesInvariant : Prop := State.reset.Inv

/-- Every step keeps the invariant: the canvas and its registers (R36), the select line (R26, R240), the shape of the
trace (R174), the fault register (R27, R28, R203, R206, R207), and the command port (R21, R34; the model's own fields,
log entries 1 and 3). -/
def Obligations.StepKeepsInvariant : Prop :=
  ∀ s t : State, s.Inv → step s = .next t → t.Inv

/-- 10_state.md R36. In READY the canvas exists, has 4·BC bytes and at most 32, and BC is 1 to 8; in UNINIT CANVAS, BC
and SELPIN hold no value. It holds after power-on and every step preserves it. -/
def Obligations.CanvasLengthInvariant : Prop :=
  State.reset.CanvasInv ∧
  (∀ s t : State, s.CanvasInv → step s = .next t → t.CanvasInv) ∧
  (∀ s : State, s.CanvasInv → s.initState = .ready →
    ∃ b bs, s.bc = some b ∧ 1 ≤ b.toNat ∧ b.toNat ≤ 8 ∧ s.canvasBytes = some bs ∧ bs.length = 4 * b.toNat ∧
      bs.length ≤ 32) ∧
  (∀ s : State, s.CanvasInv → s.initState = .uninit → s.canvas = none ∧ s.bc = none ∧ s.selPin = none)

/-- 10_state.md R26, 70_reset_and_hazards.md R240: between commands SEL is 1 in READY and UNDRIVEN in UNINIT, the level
the events sent so far leave on the line; it holds after power-on and every step preserves it. -/
def Obligations.SelectLineHighBetweenCommands : Prop :=
  State.reset.SelInv ∧ ∀ s t : State, s.SelInv → step s = .next t → t.SelInv

/-- 10_state.md R31, 43_serializer.md R174: a step only appends to OUT, and what it appends is nothing, one SelInit, or
one whole transfer frame; before a frame the line is high in every state a run reaches, and after it too. -/
def Obligations.OutputGrowsByWholeFrames : Prop :=
  ∀ s t : State, step s = .next t →
    t.out = s.out ∨ (∃ pin, s.initState = .uninit ∧ t.out = s.out ++ [.selInit pin]) ∨
      ∃ bs : List Byte, s.initState = .ready ∧
        t.out = s.out ++ .selDrive .low :: (bs.map .tx ++ [.selDrive .high]) ∧
        (s.Inv → s.sel = .driven .high) ∧ t.sel = .driven .high

/-- From every state that meets the invariant, a step answers a next state, or the block has recorded a fault and is
stuck (60_exceptions.md R202, R208). No command is refused, no byte outside the canvas is touched (20_memory.md R66),
and no register is read where it holds no value (93_implementation_defined.md item 17; log entry 4). With nothing
presented the step answers the same state, which is the model's choice (log entry 2). -/
def Obligations.OnlyARecordedFaultStopsTheBlock : Prop :=
  ∀ s : State, s.Inv → safeOutcome s (step s)

/-- A run ends complete or stuck within as many steps as words are left (60_exceptions.md R219), from every state that
meets the invariant. The program is the model's own field (log entry 1). -/
def Obligations.EveryRunEnds : Prop :=
  ∀ s : State, s.Inv → ∃ n t, n ≤ s.program.length - s.ci ∧ core.run n s = .next t ∧
    (t.complete = true ∨ t.stuckEnd = true)

/-! ### The command port and the faults -/

/-- A step runs the decoded command. With nothing presented the block waits in the same state (R230; log entry 2). A
word placed on the port is the one the next step takes (log entry 1). -/
def Obligations.StepRunsDecodedCommand : Prop :=
  (∀ (s : State) (w : Word) (i : Instr), presented s = some w → decode w = .instr i → i.wellFormed = true →
    step s = exec i s) ∧
  (∀ (s : State) (nbits w : Nat) (i : Instr), decodeTableWord nbits w = some i →
    step (s.withFetchWord nbits w) = exec i (s.withFetchWord nbits w)) ∧
  (∀ s : State, presented s = none → s.faultCause = 0#3 → step s = .next s)

/-- 10_state.md R21, R34: an accepted command advances `ci` by exactly 1 and gives one response, OK or FAIL for INIT
and NONE for every other command; a command that raises a fault does neither (60_exceptions.md R202). The host's program
does not change (20_memory.md R64). `responses` and `program` are the model's own fields (log entries 1 and 3). -/
def Obligations.AcceptedCommandsAdvanceTheIndex : Prop :=
  ∀ (i : Instr) (s t : State), exec i s = .next t →
    t.program = s.program ∧
    ((t.faultCause = 0#3 ∧ t.ci = s.ci + 1 ∧
        ∃ r, t.responses = s.responses ++ [r] ∧
          (match i with
           | .init _ _ => r = .ok ∨ r = .fail
           | .clear | .paint _ _ | .fill _ _ | .flush | .sendraw _ => r = .none)) ∨
      (t.faultCause ≠ 0#3 ∧ t.ci = s.ci ∧ t.responses = s.responses))

/-- 60_exceptions.md R208, with the faults of R204 to R207: for the word on the port exactly one outcome applies, in the
order of the rule. The opcode and the reserved bits are read off the word's number here. -/
def Obligations.CheckOrder : Prop :=
  ∀ (s : State) (w : Word), s.Inv → presented s = some w →
    if s.faultCause ≠ 0#3 then step s = .fault (.stuck s.faultCause)
    else if ¬(1 ≤ w.toNat / 2 ^ 32 ∧ w.toNat / 2 ^ 32 ≤ 6) then
      step s = .next { s with faultCause := 1#3, faultWord := w }
    else if (w.toNat / 2 ^ 32 = 1 ∧ w.toNat / 2 ^ 16 % 2 ^ 16 ≠ 0) ∨
        ((w.toNat / 2 ^ 32 = 2 ∨ w.toNat / 2 ^ 32 = 5) ∧ w.toNat % 2 ^ 32 ≠ 0) ∨
        (w.toNat / 2 ^ 32 = 3 ∧ w.toNat / 2 ^ 17 % 2 ^ 15 ≠ 0) then
      step s = .next { s with faultCause := 2#3, faultWord := w }
    else if w.toNat / 2 ^ 32 = 1 ∧ s.initState = .ready then
      step s = .next { s with faultCause := 4#3, faultWord := w }
    else if w.toNat / 2 ^ 32 ≠ 1 ∧ s.initState = .uninit then
      step s = .next { s with faultCause := 3#3, faultWord := w }
    else ∃ i t, decode w = .instr i ∧ step s = exec i s ∧ exec i s = .next t ∧ t.faultCause = 0#3

/-- 60_exceptions.md R202: a fault is recorded only where none was; it writes FAULT.CAUSE and FAULT.WORD with the word
on the port and changes nothing else; from then on no word has a step, whatever the host presents, and the state is not
the end of a complete run. -/
def Obligations.FaultsArePrecise : Prop :=
  ∀ (s t : State) (w : Word), presented s = some w → step s = .next t → t.faultCause ≠ 0#3 →
    s.faultCause = 0#3 ∧ t = { s with faultCause := t.faultCause, faultWord := w } ∧
    step t = .fault (.stuck t.faultCause) ∧
    (∀ u : Word, step (t.present u) = .fault (.stuck t.faultCause)) ∧
    t.complete = false ∧ t.stuckEnd = true

/-- 60_exceptions.md R202, R211: a faulted block has no step and runs no command, whatever stands on its port. -/
def Obligations.FaultedBlockIsStuck : Prop :=
  ∀ s : State, s.faultCause ≠ 0#3 →
    step s = .fault (.stuck s.faultCause) ∧ ∀ i : Instr, exec i s = .fault (.stuck s.faultCause)

/-- 60_exceptions.md R206: in UNINIT every command but INIT raises NOT_INITIALIZED, SENDRAW among them; the record holds
the command's own word (log entry 14) and nothing else changes. -/
def Obligations.UninitializedCommandsFault : Prop :=
  ∀ (i : Instr) (s : State), (∀ boards pin, i ≠ .init boards pin) → s.faultCause = 0#3 → s.initState = .uninit →
    exec i s = .next { s with faultCause := 3#3, faultWord := encode i }

/-- 60_exceptions.md R207: INIT in READY raises REINIT, whatever its operands; the record holds the command's own word
(log entry 14) and nothing else changes. -/
def Obligations.ReinitializationFaults : Prop :=
  ∀ (boards pin : BitVec 8) (s : State), s.faultCause = 0#3 → s.initState = .ready →
    exec (.init boards pin) s = .next { s with faultCause := 4#3, faultWord := encode (.init boards pin) }

/-! ### Encoding -/

/-- Decoding the word of a well-formed command gives it back, every operand at every value (30_encoding.md R73 to R79,
R82: no operand value is reserved). -/
def Obligations.DecodeEncodeRoundTrip : Prop :=
  ∀ i : Instr, i.wellFormed = true → decode (encode i) = .instr i

/-- A word that decodes to a command is that command's word: no bit of it is ignored (30_encoding.md R82, R84). -/
def Obligations.OneWordPerCommand : Prop :=
  ∀ (w : Word) (i : Instr), decode w = .instr i → encode i = w

/-- 30_encoding.md R80: the decoder on every 40-bit word, by the arithmetic of the rule on the word's number. -/
def Obligations.DecodeFollowsTheRule : Prop :=
  ∀ w : Word, decode w =
    (if w.toNat / 2 ^ 32 = 1 then
      (if w.toNat / 2 ^ 16 % 2 ^ 16 ≠ 0 then .reservedBits
       else .instr (.init (BitVec.ofNat 8 (w.toNat % 2 ^ 8)) (BitVec.ofNat 8 (w.toNat / 2 ^ 8 % 2 ^ 8))))
    else if w.toNat / 2 ^ 32 = 2 then
      (if w.toNat % 2 ^ 32 ≠ 0 then .reservedBits else .instr .clear)
    else if w.toNat / 2 ^ 32 = 3 then
      (if w.toNat / 2 ^ 17 % 2 ^ 15 ≠ 0 then .reservedBits
       else .instr (.paint (BitVec.ofNat 16 (w.toNat % 2 ^ 16)) (w.toNat / 2 ^ 16 % 2 == 1)))
    else if w.toNat / 2 ^ 32 = 4 then
      .instr (.fill (BitVec.ofNat 16 (w.toNat % 2 ^ 16)) (BitVec.ofNat 16 (w.toNat / 2 ^ 16 % 2 ^ 16)))
    else if w.toNat / 2 ^ 32 = 5 then
      (if w.toNat % 2 ^ 32 ≠ 0 then .reservedBits else .instr .flush)
    else if w.toNat / 2 ^ 32 = 6 then
      .instr (.sendraw (BitVec.ofNat 32 (w.toNat % 2 ^ 32)))
    else .illegalOpcode)

/-- 30_encoding.md R81: the illegal words are those whose opcode is 0x00 or 0x07 to 0xFF, 250 of the 256 values, the
all-zero word among them; each raises ILLEGAL_OPCODE. -/
def Obligations.IllegalOpcodes : Prop :=
  (∀ w : Word, decode w = .illegalOpcode ↔ w.toNat / 2 ^ 32 = 0 ∨ 7 ≤ w.toNat / 2 ^ 32) ∧
  ((List.range 256).filter (fun op => decide (decode (BitVec.ofNat 40 (op * 2 ^ 32)) = .illegalOpcode))).length = 250 ∧
  decode 0x0000000000#40 = .illegalOpcode ∧
  ∀ (s : State) (w : Word), presented s = some w → s.faultCause = 0#3 →
    (w.toNat / 2 ^ 32 = 0 ∨ 7 ≤ w.toNat / 2 ^ 32) → step s = .next { s with faultCause := 1#3, faultWord := w }

/-- 30_encoding.md R82: the reserved bits of INIT, CLEAR, PAINT and FLUSH; FILL and SENDRAW have none; a legal opcode with
one set raises RESERVED_BITS. -/
def Obligations.ReservedBits : Prop :=
  (∀ w : Word, decode w = .reservedBits ↔
    (w.toNat / 2 ^ 32 = 1 ∧ w.toNat / 2 ^ 16 % 2 ^ 16 ≠ 0) ∨
    (w.toNat / 2 ^ 32 = 2 ∧ w.toNat % 2 ^ 32 ≠ 0) ∨
    (w.toNat / 2 ^ 32 = 3 ∧ w.toNat / 2 ^ 17 % 2 ^ 15 ≠ 0) ∨
    (w.toNat / 2 ^ 32 = 5 ∧ w.toNat % 2 ^ 32 ≠ 0)) ∧
  (∀ w : Word, w.toNat / 2 ^ 32 = 4 ∨ w.toNat / 2 ^ 32 = 6 → ∃ i, decode w = .instr i) ∧
  ∀ (s : State) (w : Word), presented s = some w → s.faultCause = 0#3 → decode w = .reservedBits →
    step s = .next { s with faultCause := 2#3, faultWord := w }

/-- The opcode table (30_encoding.md R73 to R78): a word matches a row exactly when it decodes to the row's command, and
no word matches two rows. -/
def Obligations.OpcodeTableMatchesDecoder : Prop :=
  (∀ r ∈ opcodeTable, ∀ w : Word, r.matches w = true ↔ ∃ i, decode w = .instr i ∧ i.mnemonic = r.mnemonic) ∧
  opcodeTable.Pairwise (fun r r' => ∀ w : Word, ¬(r.matches w = true ∧ r'.matches w = true))

/-- 30_encoding.md R87: the worked encodings, each word and what it decodes to. `init 9, 5` responds FAIL, which is
read in the model's own field `responses` (log entry 3). -/
def Obligations.WorkedEncodings : Prop :=
  encode (.init 2#8 5#8) = 0x0100000502#40 ∧ decode 0x0100000502#40 = .instr (.init 2#8 5#8) ∧
  encode (.init 9#8 5#8) = 0x0100000509#40 ∧ decode 0x0100000509#40 = .instr (.init 9#8 5#8) ∧
  (∀ s : State, s.faultCause = 0#3 → s.initState = .uninit →
    ∃ t, exec (.init 9#8 5#8) s = .next t ∧ t.responses = s.responses ++ [.fail]) ∧
  encode .clear = 0x0200000000#40 ∧ decode 0x0200000000#40 = .instr .clear ∧
  encode (.paint 30#16 true) = 0x030001001E#40 ∧ decode 0x030001001E#40 = .instr (.paint 30#16 true) ∧
  encode (.paint 2#16 false) = 0x0300000002#40 ∧ decode 0x0300000002#40 = .instr (.paint 2#16 false) ∧
  encode (.fill 31#16 45#16) = 0x04002D001F#40 ∧ decode 0x04002D001F#40 = .instr (.fill 31#16 45#16) ∧
  encode (.fill 0#16 0#16) = 0x0400000000#40 ∧ decode 0x0400000000#40 = .instr (.fill 0#16 0#16) ∧
  encode .flush = 0x0500000000#40 ∧ decode 0x0500000000#40 = .instr .flush ∧
  encode (.sendraw 0x12345678#32) = 0x0612345678#40 ∧ decode 0x0612345678#40 = .instr (.sendraw 0x12345678#32) ∧
  decode 0x0300020000#40 = .reservedBits ∧ decode 0x0700000000#40 = .illegalOpcode

/-! ### Index mapper -/

/-- 41_mapping.md R120, R123: the two formulas, in the constants of 00_scope.md R9; `adj1(0) = 0`. -/
def Obligations.MapperFormulas : Prop :=
  (∀ L : Nat, phys0 L = L + Config.padPerBoard * (L / Config.ledsPerBoard)) ∧
  adj1 0 = 0 ∧
  ∀ bar : Nat, 1 ≤ bar → adj1 bar = bar + Config.padPerBoard * ((bar - 1) / Config.ledsPerBoard)

/-- 41_mapping.md R126, R127: the range of `phys0`, its padding facts, that it is strictly increasing with exactly the
cells 0 to 29 in its image, and the jump at a board boundary. -/
def Obligations.ZeroBasedMappingFacts : Prop :=
  (∀ BC L : Nat, phys0 L < 32 * BC ↔ L < 30 * BC) ∧
  (∀ L : Nat, phys0 L % 32 = L % 30 ∧ L % 30 ≤ 29) ∧
  (∀ BC L : Nat, phys0 L < 32 * BC → phys0 L / 8 + 1 ≤ 4 * BC) ∧
  StrictMono phys0 ∧
  (∀ p : Nat, (∃ L, phys0 L = p) ↔ p % 32 ≤ 29) ∧
  (∀ L : Nat, L % 30 ≠ 29 → phys0 (L + 1) = phys0 L + 1) ∧
  (∀ L : Nat, L ≤ 29 → phys0 L = L) ∧
  ∀ q : Nat, phys0 (30 * q + 29) = 32 * q + 29 ∧ phys0 (30 * q + 30) = 32 * q + 32

/-- 41_mapping.md R125, R128, R129: `adj1` is one past the bar's last LED; its range, its largest in-range value, the
values it never takes, its residues, and that an in-range FILL's byte indices are canvas bytes. -/
def Obligations.OneBasedMappingFacts : Prop :=
  (∀ bar : Nat, 1 ≤ bar → adj1 bar = phys0 (bar - 1) + 1 ∧
    adj1 bar = 32 * ((bar - 1) / 30) + (bar - 1) % 30 + 1) ∧
  (∀ BC bar : Nat, adj1 bar ≤ 32 * BC ↔ bar ≤ 30 * BC) ∧
  (∀ BC : Nat, 1 ≤ BC → adj1 (30 * BC) = 32 * BC - 2 ∧
    ∀ bar, adj1 bar ≠ 32 * BC - 1 ∧ adj1 bar ≠ 32 * BC ∧ (adj1 bar ≤ 32 * BC ↔ adj1 bar < 32 * BC) ∧
      (adj1 bar ≤ 32 * BC → adj1 bar ≤ 32 * BC - 2 ∧ adj1 bar / 8 ≤ 4 * BC - 1 ∧
        ∀ i, i < adj1 bar / 8 → i < 4 * BC)) ∧
  ∀ bar : Nat, (adj1 bar % 32 = 0 ↔ bar = 0) ∧ adj1 bar % 32 ≤ 30

/-- 41_mapping.md R130: on 16-bit operands both mappings reach at most 69903, which is below 2^17. -/
def Obligations.MappedPositionsFitInSeventeenBits : Prop :=
  (∀ L : BitVec 16, phys0 L.toNat ≤ 69903 ∧ adj1 L.toNat ≤ 69903) ∧
  phys0 65535 = 69903 ∧ adj1 65535 = 69903 ∧ 65535 + 2 * 2184 = 69903 ∧ 69903 < 2 ^ 17

/-! ### INIT -/

/-- 40_init.md R100, 70_reset_and_hazards.md R231: INIT of a count 1 to 8 in UNINIT succeeds, and every field of the state
it leaves. The field `responses` is the model's record of the response port (log entry 3), and `frameSources` of the
frames sent (log entry 17). -/
def Obligations.InitSucceeds : Prop :=
  ∀ (s : State) (boards pin : BitVec 8), s.faultCause = 0#3 → s.initState = .uninit → 1 ≤ boards.toNat →
    boards.toNat ≤ 8 →
    ∃ t b, exec (.init boards pin) s = .next t ∧ t.initState = .ready ∧ t.bc = some b ∧ b.toNat = boards.toNat ∧
      t.selPin = some pin ∧ t.canvasBytes = some (List.replicate (4 * boards.toNat) 0x00#8) ∧
      t.sel = .driven .high ∧ t.out = s.out ++ [.selInit pin] ∧ t.responses = s.responses ++ [.ok] ∧
      t.ci = s.ci + 1 ∧ t.faultCause = s.faultCause ∧ t.faultWord = s.faultWord ∧ t.program = s.program ∧
      t.frameSources = s.frameSources

/-- 40_init.md R101: INIT with a count outside 1 to 8 responds FAIL (in the model's own field `responses`, log entry 3) and
changes no state of R37's table; no event is emitted, SEL stays UNDRIVEN, and BC, SELPIN and CANVAS stay without a value. -/
def Obligations.InitOfBadCountFails : Prop :=
  ∀ (s : State) (boards pin : BitVec 8), s.faultCause = 0#3 → s.initState = .uninit →
    (boards.toNat = 0 ∨ 8 < boards.toNat) →
    exec (.init boards pin) s = .next { s with responses := s.responses ++ [.fail], ci := s.ci + 1 } ∧
    (s.Inv → ∀ t, exec (.init boards pin) s = .next t →
      t.initState = .uninit ∧ t.out = [] ∧ t.sel = .undriven ∧ t.bc = none ∧ t.selPin = none ∧ t.canvas = none)

/-- 40_init.md R102: with ALLOC_MAY_FAIL true, the draw (taken at the command index, log entry 7) decides an INIT of a
legal count, and a failed draw has exactly
the effect of a bad count; with the value the spec takes, INIT of a legal count always succeeds from UNINIT, with a
canvas of exactly boards × 4 zeroed bytes. -/
def Obligations.AllocationFailure : Prop :=
  ∀ (draw : Nat → Config.AllocOutcome) (s : State) (boards pin : BitVec 8), s.faultCause = 0#3 →
    s.initState = .uninit → 1 ≤ boards.toNat → boards.toNat ≤ 8 →
    (draw s.ci = .failed → initUnder true draw boards pin s = exec (.init 0#8 pin) s) ∧
    (draw s.ci = .obtained → initUnder true draw boards pin s = exec (.init boards pin) s) ∧
    ∃ t, exec (.init boards pin) s = .next t ∧ t.initState = .ready ∧
      t.canvasBytes = some (List.replicate (boards.toNat * 4) 0x00#8)

/-- 40_init.md R106: after an INIT that responded FAIL, an INIT is evaluated afresh: a legal count succeeds and a bad one
fails again; after one that responded OK, a second INIT is a fault. The response is read in the model's own field
`responses` (log entry 3). -/
def Obligations.InitMayBeRetried : Prop :=
  ∀ (s t : State) (boards pin boards' pin' : BitVec 8), exec (.init boards pin) s = .next t →
    (t.responses = s.responses ++ [.fail] →
      (1 ≤ boards'.toNat ∧ boards'.toNat ≤ 8 →
        ∃ u, exec (.init boards' pin') t = .next u ∧ u.initState = .ready ∧ u.responses = t.responses ++ [.ok]) ∧
      (boards'.toNat = 0 ∨ 8 < boards'.toNat →
        ∃ u, exec (.init boards' pin') t = .next u ∧ u.initState = .uninit ∧ u.responses = t.responses ++ [.fail])) ∧
    (t.responses = s.responses ++ [.ok] →
      ∃ u, exec (.init boards' pin') t = .next u ∧ u.faultCause = 4#3)

/-- 40_init.md R103: after a successful INIT, BC, SELPIN and the canvas length never change. -/
def Obligations.ConfigurationIsFixed : Prop :=
  ∀ s t : State, s.initState = .ready → step s = .next t →
    t.initState = .ready ∧ t.bc = s.bc ∧ t.selPin = s.selPin ∧
      t.canvasBytes.map List.length = s.canvasBytes.map List.length

/-- 10_state.md R22, 70_reset_and_hazards.md R231: a successful INIT is the only way into READY. Its
response OK is read in the model's own field `responses` (log entry 3). -/
def Obligations.OnlyInitEntersReady : Prop :=
  ∀ s t : State, s.initState = .uninit → step s = .next t → t.initState = .ready →
    ∃ w boards pin, presented s = some w ∧ decode w = .instr (.init boards pin) ∧ 1 ≤ boards.toNat ∧
      boards.toNat ≤ 8 ∧ t.responses = s.responses ++ [.ok]

/-! ### CLEAR, PAINT and FILL -/

/-- 42_canvas_ops.md R140: CLEAR zeroes every canvas byte and changes nothing else; no event. It is accepted, with the
response NONE (R34; `responses` is the model's record, log entry 3). -/
def Obligations.ClearZeroesTheCanvas : Prop :=
  ∀ s : State, s.Inv → s.initState = .ready → s.faultCause = 0#3 →
    ∃ t, exec .clear s = .next t ∧
      (∀ i, t.canvasByte i = (s.canvasByte i).map (fun _ => 0x00#8)) ∧
      t = { s with canvas := t.canvas, responses := s.responses ++ [.none], ci := s.ci + 1 }

/-- 42_canvas_ops.md R141: PAINT sets the bit at `phys0(pos)` to `v` where that is in range, and out of range changes no
bit; every canvas byte but that bit's is unchanged, and everything else is. It is accepted, with the response NONE
(`responses` is the model's record, log entry 3). -/
def Obligations.PaintSetsOneBit : Prop :=
  ∀ (s : State) (pos : BitVec 16) (v : Bool) (b : BitVec 4), s.Inv → s.initState = .ready → s.faultCause = 0#3 →
    s.bc = some b →
    ∃ t, exec (.paint pos v) s = .next t ∧
      (∀ p, t.canvasBit p =
        if phys0 pos.toNat < 32 * b.toNat ∧ p = phys0 pos.toNat then some v else s.canvasBit p) ∧
      (∀ i, ¬(phys0 pos.toNat < 32 * b.toNat ∧ i = phys0 pos.toNat / 8) → t.canvasByte i = s.canvasByte i) ∧
      t = { s with canvas := t.canvas, responses := s.responses ++ [.none], ci := s.ci + 1 }

/-- 42_canvas_ops.md R142: the PAINT round trip. -/
def Obligations.PaintRoundTrip : Prop :=
  ∀ (s : State) (L : BitVec 16) (b : BitVec 4), s.Inv → s.initState = .ready → s.faultCause = 0#3 →
    s.bc = some b → L.toNat < 30 * b.toNat →
    ∃ t u, exec (.paint L true) s = .next t ∧ exec (.paint L false) t = .next u ∧
      (t.canvasByte (phys0 L.toNat / 8)).map (fun x => x.getLsbD (phys0 L.toNat % 8)) = some true ∧
      (u.canvasByte (phys0 L.toNat / 8)).map (fun x => x.getLsbD (phys0 L.toNat % 8)) = some false ∧
      ∀ p, p ≠ phys0 L.toNat → t.canvasBit p = s.canvasBit p ∧ u.canvasBit p = s.canvasBit p

/-- 42_canvas_ops.md R144, 41_mapping.md R132: what an in-range FILL leaves, by physical position, by LED, and in the
padding cells. -/
def Obligations.FillLightsTheBarAndThePeak : Prop :=
  ∀ (s : State) (bar peak : BitVec 16) (b : BitVec 4), s.Inv → s.initState = .ready → s.faultCause = 0#3 →
    s.bc = some b → adj1 bar.toNat ≤ 32 * b.toNat →
    ∃ t, exec (.fill bar peak) s = .next t ∧
      (∀ p, p < 32 * b.toNat →
        t.canvasBit p = some (decide (p < adj1 bar.toNat ∨ (1 ≤ peak.toNat ∧ p = phys0 (peak.toNat - 1))))) ∧
      (∀ L, L < 30 * b.toNat →
        t.canvasBit (phys0 L) = some (decide (L < bar.toNat ∨ (1 ≤ peak.toNat ∧ L = peak.toNat - 1)))) ∧
      ∀ k c, k < b.toNat → (c = 30 ∨ c = 31) →
        t.canvasBit (32 * k + c) = some (decide (k < (bar.toNat - 1) / 30))

/-- 42_canvas_ops.md R145: the peak is an OR. An in-range FILL with a peak leaves every bit the same FILL without one
leaves lit, and a peak inside the bar changes no bit. -/
def Obligations.PeakNeverClearsABarBit : Prop :=
  ∀ (s : State) (bar peak : BitVec 16) (b : BitVec 4), s.Inv → s.initState = .ready → s.faultCause = 0#3 →
    s.bc = some b → adj1 bar.toNat ≤ 32 * b.toNat →
    ∃ t u, exec (.fill bar 0#16) s = .next t ∧ exec (.fill bar peak) s = .next u ∧
      (∀ p, t.canvasBit p = some true → u.canvasBit p = some true) ∧
      (peak.toNat ≤ bar.toNat → u = t)

/-- 42_canvas_ops.md R143, R146: an in-range FILL ends with exactly one frame of the 4·BC bytes of the canvas it wrote,
last byte first, and changes nothing besides the canvas, OUT and SEL (log entry 15). It is accepted, with the response
NONE (`responses` is the model's record, log entry 3), and its frame is a FLUSH frame (`frameSources`, log entry 17). -/
def Obligations.FillSendsOneFrame : Prop :=
  ∀ (s : State) (bar peak : BitVec 16) (b : BitVec 4), s.Inv → s.initState = .ready → s.faultCause = 0#3 →
    s.bc = some b → adj1 bar.toNat ≤ 32 * b.toNat →
    ∃ t bs, exec (.fill bar peak) s = .next t ∧ t.canvasBytes = some bs ∧ bs.length = 4 * b.toNat ∧
      t = { s with
            canvas := t.canvas
            sel := .driven .high
            out := s.out ++ .selDrive .low :: (bs.reverse.map .tx ++ [.selDrive .high])
            frameSources := s.frameSources ++ [.flush]
            responses := s.responses ++ [.none]
            ci := s.ci + 1 }

/-- 41_mapping.md R124, 60_exceptions.md R201, 90_conflicts.md C4: an out-of-range FILL is accepted and is a no-op as a
whole: no canvas change, no peak, no event. `responses` is the model's record (log entry 3). -/
def Obligations.FillOutOfRangeIsANoOp : Prop :=
  ∀ (s : State) (bar peak : BitVec 16) (b : BitVec 4), s.Inv → s.initState = .ready → s.faultCause = 0#3 →
    s.bc = some b → 32 * b.toNat < adj1 bar.toNat →
    exec (.fill bar peak) s = .next { s with responses := s.responses ++ [.none], ci := s.ci + 1 }

/-- 42_canvas_ops.md R147: an in-range FILL has the same effect on CANVAS and OUT as CLEAR, then writing the bar bytes,
then PAINT of `peak - 1` where `peak > 0`, then FLUSH. -/
def Obligations.FillIsClearBarPaintFlush : Prop :=
  ∀ (s : State) (bar peak : BitVec 16) (b : BitVec 4), s.Inv → s.initState = .ready → s.faultCause = 0#3 →
    s.bc = some b → adj1 bar.toNat ≤ 32 * b.toNat →
    ∃ t s1 m1 s2 s3 s4, exec (.fill bar peak) s = .next t ∧
      exec .clear s = .next s1 ∧ s1.canvas = some m1 ∧
      s2 = { s1 with
             canvas := some ((m1.writeBelow (adj1 bar.toNat / 8) 0xFF#8).write (adj1 bar.toNat / 8)
               (BitVec.ofNat 8 (2 ^ (adj1 bar.toNat % 8) - 1))) } ∧
      (if peak.toNat = 0 then s3 = s2 else exec (.paint (peak - 1#16) true) s2 = .next s3) ∧
      exec .flush s3 = .next s4 ∧ t.canvas = s4.canvas ∧ t.out = s4.out

/-- 41_mapping.md R132, 42_canvas_ops.md R141: no command but FILL lights a padding cell, and FILL lights one only where
its bar passes it. -/
def Obligations.OnlyABarLightsPadding : Prop :=
  ∀ (i : Instr) (s t : State) (p : Nat), exec i s = .next t → 30 ≤ p % 32 → t.canvasBit p = some true →
    s.canvasBit p = some true ∨ ∃ bar peak, i = .fill bar peak ∧ p < adj1 bar.toNat

/-- 70_reset_and_hazards.md R236: an in-range FILL discards the earlier canvas. Two canvases of the same board count give
the same canvas and the same events. -/
def Obligations.FillDiscardsTheCanvas : Prop :=
  ∀ (s s' t t' : State) (bar peak : BitVec 16) (b : BitVec 4), s.Inv → s'.Inv → s.initState = .ready →
    s'.initState = .ready → s.bc = some b → s'.bc = some b → s.out = s'.out → adj1 bar.toNat ≤ 32 * b.toNat →
    exec (.fill bar peak) s = .next t → exec (.fill bar peak) s' = .next t' →
    t.canvas = t'.canvas ∧ t.out = t'.out

/-- 20_memory.md R58: CLEAR, PAINT and FLUSH are idempotent in the canvas. -/
def Obligations.CanvasCommandsAreIdempotent : Prop :=
  ∀ (i : Instr) (s : State), (i = .clear ∨ i = .flush ∨ ∃ pos v, i = .paint pos v) → s.Inv →
    s.initState = .ready → s.faultCause = 0#3 →
    ∃ t u, exec i s = .next t ∧ exec i t = .next u ∧ u.canvas = t.canvas

/-! ### FLUSH and SENDRAW -/

/-- 43_serializer.md R170: FLUSH appends one frame of the canvas bytes, last byte first, and changes nothing else; SEL is 1
after it. It is accepted, with the response NONE (`responses` and `frameSources` are the model's records, log entries 3
and 17). -/
def Obligations.FlushSendsTheCanvas : Prop :=
  ∀ s : State, s.Inv → s.initState = .ready → s.faultCause = 0#3 →
    ∃ bs, s.canvasBytes = some bs ∧
      exec .flush s = .next { s with
        sel := .driven .high
        out := s.out ++ .selDrive .low :: (bs.reverse.map .tx ++ [.selDrive .high])
        frameSources := s.frameSources ++ [.flush]
        responses := s.responses ++ [.none]
        ci := s.ci + 1 }

/-- 43_serializer.md R171, R176: FLUSH leaves the canvas byte for byte, and its frame's bytes are
`canvas[4·BC - 1]` down to `canvas[0]`, in groups of four from board BC - 1 to board 0: the canvas number sent most
significant byte first. -/
def Obligations.FlushFrameOrder : Prop :=
  ∀ (s : State) (b : BitVec 4), s.Inv → s.initState = .ready → s.faultCause = 0#3 → s.bc = some b →
    ∃ t f bs, exec .flush s = .next t ∧ (∀ i, t.canvasByte i = s.canvasByte i) ∧ s.canvasBytes = some bs ∧
      t.out = s.out ++ .selDrive .low :: (f.map .tx ++ [.selDrive .high]) ∧
      f.length = 4 * b.toNat ∧
      (∀ j, j < 4 * b.toNat → f[j]? = s.canvasByte (4 * b.toNat - 1 - j)) ∧
      (∀ k c, k < b.toNat → c < 4 → f[4 * (b.toNat - 1 - k) + c]? = s.canvasByte (4 * k + 3 - c)) ∧
      f = numberBytes (4 * b.toNat) (bytesNumber bs)

/-- 20_memory.md R53: the canvas read as a number is little-endian, a natural of 32·BC bits, and its bit `p` is physical
position `p`. -/
def Obligations.CanvasIsALittleEndianNumber : Prop :=
  ∀ (s : State) (b : BitVec 4) (bs : List Byte), s.bc = some b → s.canvasBytes = some bs →
    bytesNumber bs = ((List.range (4 * b.toNat)).map (fun i => (bs.getD i 0x00#8).toNat * 2 ^ (8 * i))).sum ∧
    bytesNumber bs < 2 ^ (32 * b.toNat) ∧
    ∀ p, p < 32 * b.toNat → s.canvasBit p = some ((bytesNumber bs).testBit p)

/-- 43_serializer.md R172: SENDRAW appends one frame of the value's four bytes, most significant first, and changes
nothing else, whatever the canvas; SEL is 1 after it. It is accepted, with the response NONE (`responses` and
`frameSources` are the model's records, log entries 3 and 17). -/
def Obligations.SendrawSendsFourBytes : Prop :=
  ∀ (s : State) (v : BitVec 32), s.initState = .ready → s.faultCause = 0#3 →
    exec (.sendraw v) s = .next { s with
      sel := .driven .high
      out := s.out ++ [.selDrive .low, .tx (BitVec.ofNat 8 (v.toNat / 2 ^ 24)), .tx (BitVec.ofNat 8 (v.toNat / 2 ^ 16)),
        .tx (BitVec.ofNat 8 (v.toNat / 2 ^ 8)), .tx (BitVec.ofNat 8 v.toNat), .selDrive .high]
      frameSources := s.frameSources ++ [.sendraw]
      responses := s.responses ++ [.none]
      ci := s.ci + 1 }

/-- 43_serializer.md R173: SENDRAW is accepted at every BC from 1 to 8 and sends exactly four bytes. -/
def Obligations.SendrawAtEveryBoardCount : Prop :=
  ∀ (s : State) (v : BitVec 32) (b : BitVec 4), s.Inv → s.initState = .ready → s.faultCause = 0#3 → s.bc = some b →
    1 ≤ b.toNat ∧ b.toNat ≤ 8 ∧
    ∃ t, exec (.sendraw v) s = .next t ∧ t.faultCause = 0#3 ∧ txCount t.out = txCount s.out + 4

/-- 43_serializer.md R175: with one board, FLUSH and SENDRAW of the canvas read as a little-endian word emit the same
events, and bit `p` of that word is physical position `p`. -/
def Obligations.SendrawMatchesFlushOnOneBoard : Prop :=
  ∀ (s : State) (c0 c1 c2 c3 : Byte) (v : BitVec 32), s.Inv → s.initState = .ready → s.faultCause = 0#3 →
    s.bc = some 1#4 → s.canvasBytes = some [c0, c1, c2, c3] →
    v.toNat = c3.toNat * 2 ^ 24 + c2.toNat * 2 ^ 16 + c1.toNat * 2 ^ 8 + c0.toNat →
    (∃ t u, exec .flush s = .next t ∧ exec (.sendraw v) s = .next u ∧ t.out = u.out) ∧
    ∀ p, p < 32 → s.canvasBit p = some (v.getLsbD p)

/-- 70_reset_and_hazards.md R239: the bytes each accepted command sends: 4·BC for FLUSH and for an in-range FILL, 4 for
SENDRAW, none for every other command. -/
def Obligations.BytesPerCommand : Prop :=
  ∀ (i : Instr) (s t : State), exec i s = .next t → t.faultCause = 0#3 →
    txCount t.out = txCount s.out +
      (match i with
       | .init _ _ | .clear | .paint _ _ => 0
       | .sendraw _ => 4
       | .flush => 4 * ((s.bc.map BitVec.toNat).getD 0)
       | .fill bar _ =>
         if adj1 bar.toNat ≤ 32 * ((s.bc.map BitVec.toNat).getD 0) then 4 * ((s.bc.map BitVec.toNat).getD 0) else 0)

/-! ### What no command reads -/

/-- 10_state.md R24, R26, R30, R31: nothing in the block reads OUT, SEL, SELPIN or the model's own record of the frames'
sources (log entry 17). Two READY states that differ only there give next states that differ only there, with the same
events and sources appended. -/
def Obligations.OutputsAreNeverRead : Prop :=
  ∀ (i : Instr) (s t : State) (out : List Event) (srcs : List FrameSource) (sel : SelLine) (pin : Option (BitVec 8)),
    s.initState = .ready → exec i s = .next t →
    ∃ es srcs' sel', t.out = s.out ++ es ∧ t.frameSources = s.frameSources ++ srcs' ∧
      exec i { s with out := out, frameSources := srcs, sel := sel, selPin := pin } =
        .next { t with out := out ++ es, frameSources := srcs ++ srcs', sel := sel', selPin := pin }

/-- 60_exceptions.md R215: a step of one instance changes no other instance. That instances are a list stepped by index,
and that an index with no instance changes nothing, is the model's choice (log entry 16). -/
def Obligations.InstancesAreIndependent : Prop :=
  ∀ (ss ts : List State) (k : Nat), stepInstance ss k = .next ts →
    ts.length = ss.length ∧ (∀ j, j ≠ k → ts[j]? = ss[j]?) ∧
    ∀ s, ss[k]? = some s → ∃ t, step s = .next t ∧ ts[k]? = some t

/-! ### The flushed canvas (10_state.md R30) -/

/-- 10_state.md R30: the canvas is flushed where it equals the bytes of the last FLUSH frame of OUT in reverse. Of the
accepted commands, FLUSH and an in-range FILL leave it so; SENDRAW sends no FLUSH frame, so it changes nothing of this;
CLEAR, PAINT and an out-of-range FILL leave the last FLUSH frame as it was; after INIT there is none. Which frames are
FLUSH frames is the model's own record (log entry 17). -/
def Obligations.FlushedFollowsTheLastFlushFrame : Prop :=
  (∀ s : State, s.flushed = true ↔ ∃ bs, s.canvasBytes = some bs ∧ s.lastFlushFrame = some bs.reverse) ∧
  ∀ (i : Instr) (s t : State), s.Inv → exec i s = .next t → t.faultCause = 0#3 →
    (match i with
     | .init _ _ => t.lastFlushFrame = none ∧ t.flushed = false
     | .clear | .paint _ _ => t.lastFlushFrame = s.lastFlushFrame
     | .sendraw _ => t.lastFlushFrame = s.lastFlushFrame ∧ t.flushed = s.flushed
     | .flush => t.lastFlushFrame = s.canvasBytes.map List.reverse ∧ t.flushed = true
     | .fill bar _ =>
       if adj1 bar.toNat ≤ 32 * ((s.bc.map BitVec.toNat).getD 0) then
         t.lastFlushFrame = t.canvasBytes.map List.reverse ∧ t.flushed = true
       else t.lastFlushFrame = s.lastFlushFrame ∧ t.flushed = s.flushed)

/-! ### The chain, and the display (43_serializer.md R185; log entry 11) -/

/-- 43_serializer.md R185: after a FLUSH or an in-range FILL, the registers and latches of board `k` hold canvas bytes `4k`
to `4k + 3`; and for every bit order and every placement that meets the constraint, board `k`'s LED cell `c` shows
physical position `32k + c`, and logical LED `L` shows the canvas bit `phys0(L)`. The chain is an observation of the model
(log entry 11). -/
def Obligations.FrameShowsTheCanvas : Prop :=
  ∀ (i : Instr) (s : State) (b : BitVec 4), s.Inv → s.initState = .ready → s.faultCause = 0#3 → s.bc = some b →
    (i = .flush ∨ ∃ bar peak, i = .fill bar peak ∧ adj1 bar.toNat ≤ 32 * b.toNat) →
    ∃ t ch bs, exec i s = .next t ∧ t.flushed = true ∧ t.chain = some ch ∧ t.canvasBytes = some bs ∧
      bs.length = 4 * b.toNat ∧ ch.shift = bs.map some ∧ ch.latch = bs.map some ∧ t.display = some bs ∧
      ∀ (order : Config.BitOrder) (place : Placement), place.Fits order →
        (∀ k c, k < b.toNat → c < 30 → t.cellShown order place k c = t.canvasBit (32 * k + c)) ∧
        ∀ L, L < 30 * b.toNat → t.ledShown order place L = t.canvasBit (phys0 L)

/-- 43_serializer.md R185: the constraint on the placement is exactly the result it is there for. A placement meets it
under a bit order if and only if every FLUSH leaves every LED cell showing its physical position (log entry 11). -/
def Obligations.PlacementIsSpecifiedByTheResult : Prop :=
  ∀ (order : Config.BitOrder) (place : Placement), place.Fits order ↔
    ∀ (s t : State) (b : BitVec 4), s.Inv → s.initState = .ready → s.bc = some b → exec .flush s = .next t →
      ∀ k c, k < b.toNat → c < 30 → t.cellShown order place k c = t.canvasBit (32 * k + c)

/-- 70_reset_and_hazards.md R233, R234: what the boards show changes only by a transfer frame: a command that appends none
changes nothing of it, for every bit order and placement. The commands that append none are all but an accepted FLUSH,
SENDRAW and in-range FILL. After a successful INIT the model says nothing of what the boards show (log entry 11). -/
def Obligations.DisplayChangesOnlyByFrames : Prop :=
  (∀ (i : Instr) (s t : State), (s.Inv ∨ ∀ boards pin, i ≠ .init boards pin) → exec i s = .next t →
    t.frames = s.frames →
    t.display = s.display ∧ ∀ order place L, t.ledShown order place L = s.ledShown order place L) ∧
  (∀ (i : Instr) (s t : State), exec i s = .next t →
    (t.faultCause ≠ 0#3 ∨ i = .clear ∨ (∃ pos v, i = .paint pos v) ∨ (∃ boards pin, i = .init boards pin) ∨
      ∃ bar peak b, i = .fill bar peak ∧ s.bc = some b ∧ 32 * b.toNat < adj1 bar.toNat) →
    t.frames = s.frames) ∧
  ∀ (s t : State) (boards pin : BitVec 8), s.Inv → exec (.init boards pin) s = .next t → t.faultCause = 0#3 →
    t.display = none ∧ ∀ order place L, t.ledShown order place L = none

/-- 70_reset_and_hazards.md R235: SENDRAW leaves the canvas as it is; with more than one board nothing is said of what the
chain then shows (93_implementation_defined.md item 7), and the next FLUSH shows the canvas again (log entry 11). -/
def Obligations.FlushAfterSendrawRestoresTheDisplay : Prop :=
  ∀ (s : State) (v : BitVec 32) (b : BitVec 4), s.Inv → s.initState = .ready → s.faultCause = 0#3 → s.bc = some b →
    ∃ t u, exec (.sendraw v) s = .next t ∧ t.canvas = s.canvas ∧
      (1 < b.toNat → t.display = none ∧ ∀ order place L, t.ledShown order place L = none) ∧
      exec .flush t = .next u ∧ u.display = s.canvasBytes ∧ u.flushed = true

/-! ### The assembler (30_encoding.md R85, R86) -/

/-- 30_encoding.md R85: the word of each line by the table of the rule; a line with an operand that does not fit its
field is refused. -/
def Obligations.AssemblerWords : Prop :=
  ∀ (pin : BitVec 8) (l : AsmLine), l.assemble pin =
    if (l.expand pin).wellFormed then
      some (BitVec.ofNat 40
        (match l.expand pin with
         | .init boards p => (0x01 <<< 32) ||| (p <<< 8) ||| boards
         | .clear => 0x0200000000
         | .paint pos v => (0x03 <<< 32) ||| (v <<< 16) ||| pos
         | .fill bar peak => (0x04 <<< 32) ||| (peak <<< 16) ||| bar
         | .flush => 0x0500000000
         | .sendraw value => (0x06 <<< 32) ||| value))
    else none

/-- 30_encoding.md R86: the three pseudo-instructions and their expansions, for every value of SEL_PIN_DEFAULT. -/
def Obligations.PseudoInstructions : Prop :=
  ∀ pin : BitVec 8,
    AsmLine.assemble pin .initBare = AsmLine.assemble pin (.init 1 pin.toNat) ∧
    (∀ boards, AsmLine.assemble pin (.initBoards boards) = AsmLine.assemble pin (.init boards pin.toNat)) ∧
    ∀ bar, AsmLine.assemble pin (.fillBar bar) = AsmLine.assemble pin (.fill bar 0)

/-- An assembled line decodes to the operation it names, every operand as written (30_encoding.md R79, R85). -/
def Obligations.AssembledLineDecodes : Prop :=
  ∀ (pin : BitVec 8) (l : AsmLine) (w : Word), l.assemble pin = some w →
    ∃ i, decode w = .instr i ∧ i.toCall = l.expand pin
end

