-- ==== Sys2Proof/Laws/Memory.lean ====
section
/-!
SUPPORT. The canvas storage: reading after a write, the canonical form, and the bytes a loop leaves.
-/

namespace Sys2Proof.Machine

/-! ### Reading -/

@[simp] theorem Memory.read_nil (a : Nat) : Memory.read [] a = Memory.unlisted := rfl

theorem Memory.read_erase (m : Memory) (a a' : Nat) :
    (m.erase a).read a' = if a' = a then Memory.unlisted else m.read a' := by
  induction m with
  | nil => simp [Memory.erase]
  | cons c m ih =>
    obtain ⟨b, v⟩ := c
    by_cases hb : b = a
    · subst hb
      rw [Memory.erase, if_pos rfl, ih]
      by_cases h : a' = b
      · simp [h]
      · simp [Memory.read, h, Ne.symm h]
    · rw [Memory.erase, if_neg hb, Memory.read, Memory.read, ih]
      by_cases h : b = a'
      · subst h; simp [hb]
      · simp [h]

theorem Memory.read_insert (m : Memory) (a a' : Nat) (v : Byte) (h : m.read a = Memory.unlisted)
    (hm : ∀ c ∈ m, c.1 ≠ a) :
    (m.insert a v).read a' = if a' = a then v else m.read a' := by
  induction m with
  | nil => simp [Memory.insert, Memory.read, eq_comm]
  | cons c m ih =>
    obtain ⟨b, u⟩ := c
    have hb : b ≠ a := hm (b, u) (by simp)
    rw [Memory.insert]
    split
    · by_cases h' : a = a'
      · simp [Memory.read, h']
      · simp [Memory.read, h', Ne.symm h']
    · rw [Memory.read] at h ⊢
      rw [if_neg hb] at h
      rw [ih h (fun c hc => hm c (by simp [hc]))]
      by_cases h' : b = a'
      · subst h'; simp [hb, Memory.read]
      · simp [h', Memory.read]

theorem Memory.not_mem_erase (m : Memory) (a : Nat) : ∀ c ∈ m.erase a, c.1 ≠ a := by
  induction m with
  | nil => simp [Memory.erase]
  | cons c m ih =>
    obtain ⟨b, v⟩ := c
    rw [Memory.erase]
    split
    · exact ih
    · intro c hc
      rcases List.mem_cons.mp hc with rfl | hc
      · assumption
      · exact ih c hc

/-- Reading after a write: the written byte there, the old byte elsewhere. -/
@[simp] theorem Memory.read_write (m : Memory) (a a' : Nat) (v : Byte) :
    (m.write a v).read a' = if a' = a then v else m.read a' := by
  rw [Memory.write]
  split
  · next h => subst h; exact Memory.read_erase m a a'
  · rw [Memory.read_insert _ _ _ _ (by simp [Memory.read_erase]) (Memory.not_mem_erase m a), Memory.read_erase]
    split <;> rfl

/-- The loop writes every byte below `n` and no other. -/
@[simp] theorem Memory.read_writeBelow (m : Memory) (n a : Nat) (v : Byte) :
    (m.writeBelow n v).read a = if a < n then v else m.read a := by
  induction n with
  | zero => simp [Memory.writeBelow]
  | succ n ih =>
    rw [Memory.writeBelow, Memory.read_write, ih]
    by_cases h : a = n
    · simp [h]
    · have : a < n + 1 ↔ a < n := by omega
      simp [h, this]

/-! ### The canonical form -/

theorem Memory.wfFrom_mono {lo lo' : Nat} {m : Memory} (h : m.wfFrom lo = true) (hle : lo' ≤ lo) :
    m.wfFrom lo' = true := by
  cases m with
  | nil => rfl
  | cons c m =>
    simp only [Memory.wfFrom, Bool.and_eq_true, decide_eq_true_eq] at h ⊢
    exact ⟨⟨by omega, h.1.2⟩, h.2⟩

theorem Memory.wfFrom_erase {lo : Nat} {m : Memory} (a : Nat) (h : m.wfFrom lo = true) :
    (m.erase a).wfFrom lo = true := by
  induction m generalizing lo with
  | nil => rfl
  | cons c m ih =>
    simp only [Memory.wfFrom, Bool.and_eq_true, decide_eq_true_eq] at h
    rw [Memory.erase]
    split
    · exact ih (Memory.wfFrom_mono h.2 (by omega))
    · simp only [Memory.wfFrom, Bool.and_eq_true, decide_eq_true_eq]
      exact ⟨h.1, ih h.2⟩

theorem Memory.wfFrom_insert {lo : Nat} {m : Memory} {a : Nat} {v : Byte} (h : m.wfFrom lo = true) (hlo : lo ≤ a)
    (hv : v ≠ Memory.unlisted) (hm : ∀ c ∈ m, c.1 ≠ a) : (m.insert a v).wfFrom lo = true := by
  induction m generalizing lo with
  | nil => simp [Memory.insert, Memory.wfFrom, hlo, hv]
  | cons c m ih =>
    obtain ⟨b, u⟩ := c
    have hb : b ≠ a := hm (b, u) (by simp)
    simp only [Memory.wfFrom, Bool.and_eq_true, decide_eq_true_eq, bne_iff_ne] at h
    rw [Memory.insert]
    split
    · simp only [Memory.wfFrom, Bool.and_eq_true, decide_eq_true_eq, bne_iff_ne]
      exact ⟨⟨hlo, hv⟩, ⟨by omega, h.1.2⟩, h.2⟩
    · simp only [Memory.wfFrom, Bool.and_eq_true, decide_eq_true_eq, bne_iff_ne]
      exact ⟨h.1, ih h.2 (by omega) (fun c hc => hm c (by simp [hc]))⟩

/-- A write keeps the canonical form. -/
theorem Memory.wf_write {m : Memory} (a : Nat) (v : Byte) (h : m.wf = true) : (m.write a v).wf = true := by
  rw [Memory.write]
  split
  · exact Memory.wfFrom_erase a h
  · next hv => exact Memory.wfFrom_insert (Memory.wfFrom_erase a h) (Nat.zero_le _) hv (Memory.not_mem_erase m a)

theorem Memory.wf_writeBelow {m : Memory} (n : Nat) (v : Byte) (h : m.wf = true) : (m.writeBelow n v).wf = true := by
  induction n with
  | zero => exact h
  | succ n ih => exact Memory.wf_write n v ih

theorem Memory.wf_bitWrite {m : Memory} (p : Nat) (v : Bool) (h : m.wf = true) : (m.bitWrite p v).wf = true :=
  Memory.wf_write _ _ h

theorem Memory.wf_paint {m : Memory} (boards L : Nat) (v : Bool) (h : m.wf = true) :
    (m.paint boards L v).wf = true := by
  rw [Memory.paint]
  split
  · exact Memory.wf_bitWrite _ _ h
  · exact h

theorem Memory.wf_drawBar {m : Memory} (boards a : Nat) (h : m.wf = true) : (m.drawBar boards a).wf = true :=
  Memory.wf_write _ _ (Memory.wf_writeBelow _ _ (Memory.wf_writeBelow _ _ h))

theorem Memory.wf_drawPeak {m : Memory} (boards peak : Nat) (h : m.wf = true) :
    (m.drawPeak boards peak).wf = true := by
  rw [Memory.drawPeak]
  split
  · exact h
  · exact Memory.wf_paint _ _ _ h

/-! ### Addresses stay below a bound -/

/-- Every cell's address is below the bound. -/
def Memory.Below (n : Nat) (m : Memory) : Prop := ∀ c ∈ m, c.1 < n

theorem Memory.below_erase {n : Nat} {m : Memory} (a : Nat) (h : m.Below n) : (m.erase a).Below n := by
  induction m with
  | nil => simpa [Memory.erase] using h
  | cons c m ih =>
    have hm : Memory.Below n m := fun c hc => h c (by simp [hc])
    rw [Memory.erase]
    split
    · exact ih hm
    · intro c hc
      rcases List.mem_cons.mp hc with rfl | hc
      · exact h _ (by simp)
      · exact ih hm c hc

theorem Memory.below_insert {n a : Nat} {m : Memory} (v : Byte) (h : m.Below n) (ha : a < n) :
    (m.insert a v).Below n := by
  induction m with
  | nil => simpa [Memory.insert, Memory.Below] using ha
  | cons c m ih =>
    have hm : Memory.Below n m := fun c hc => h c (by simp [hc])
    have hc0 := h c (by simp)
    rw [Memory.insert]
    split
    · intro c hc
      rcases List.mem_cons.mp hc with rfl | hc
      · exact ha
      · exact h c hc
    · intro c hc
      rcases List.mem_cons.mp hc with rfl | hc
      · exact hc0
      · exact ih hm c hc

theorem Memory.below_write {n a : Nat} {m : Memory} (v : Byte) (h : m.Below n) (ha : a < n) :
    (m.write a v).Below n := by
  rw [Memory.write]
  split
  · exact Memory.below_erase a h
  · exact Memory.below_insert v (Memory.below_erase a h) ha

theorem Memory.below_writeBelow {n k : Nat} {m : Memory} (v : Byte) (h : m.Below n) (hk : k ≤ n) :
    (m.writeBelow k v).Below n := by
  induction k with
  | zero => exact h
  | succ k ih => exact Memory.below_write v (ih (by omega)) (by omega)

/-- Two canvases in canonical form that read alike are the same data. -/
theorem Memory.ext_of_wfFrom {lo : Nat} {m m' : Memory} (h : m.wfFrom lo = true) (h' : m'.wfFrom lo = true)
    (hr : ∀ a, m.read a = m'.read a) : m = m' := by
  have low : ∀ {lo a : Nat} {m : Memory}, m.wfFrom lo = true → a < lo → m.read a = Memory.unlisted := by
    intro lo a m
    induction m generalizing lo with
    | nil => intros; rfl
    | cons c m ih =>
      intro h ha
      simp only [Memory.wfFrom, Bool.and_eq_true, decide_eq_true_eq] at h
      rw [Memory.read, if_neg (by omega)]
      exact ih h.2 (by omega)
  induction m generalizing m' lo with
  | nil =>
    cases m' with
    | nil => rfl
    | cons c m' =>
      simp only [Memory.wfFrom, Bool.and_eq_true, bne_iff_ne] at h'
      have := hr c.1
      simp [Memory.read] at this
      exact absurd this.symm h'.1.2
  | cons c m ih =>
    obtain ⟨b, v⟩ := c
    simp only [Memory.wfFrom, Bool.and_eq_true, decide_eq_true_eq, bne_iff_ne] at h
    cases m' with
    | nil =>
      have := hr b
      simp [Memory.read] at this
      exact absurd this h.1.2
    | cons c' m' =>
      obtain ⟨b', v'⟩ := c'
      simp only [Memory.wfFrom, Bool.and_eq_true, decide_eq_true_eq, bne_iff_ne] at h'
      have hbb : b = b' := by
        rcases Nat.lt_trichotomy b b' with hlt | heq | hlt
        · have := hr b
          rw [Memory.read, if_pos rfl, Memory.read, if_neg (by omega), low h'.2 (by omega)] at this
          exact absurd this h.1.2
        · exact heq
        · have := hr b'
          rw [Memory.read, if_neg (by omega), low h.2 (by omega), Memory.read, if_pos rfl] at this
          exact absurd this.symm h'.1.2
      subst hbb
      have hv : v = v' := by
        have := hr b
        simpa [Memory.read] using this
      subst hv
      congr 1
      refine ih h.2 h'.2 (fun a => ?_)
      by_cases ha : b = a
      · subst ha; rw [low h.2 (by omega), low h'.2 (by omega)]
      · have := hr a
        simpa [Memory.read, ha] using this

/-- Equal canvases are equal data. -/
theorem Memory.ext_of_wf {m m' : Memory} (h : m.wf = true) (h' : m'.wf = true) (hr : ∀ a, m.read a = m'.read a) :
    m = m' :=
  Memory.ext_of_wfFrom h h' hr

/-! ### The bytes of the canvas -/

@[simp] theorem Memory.length_bytes (m : Memory) (n : Nat) : (m.bytes n).length = n := by
  simp [Memory.bytes]

@[simp] theorem Memory.length_frameBytes (m : Memory) (boards : Nat) : (m.frameBytes boards).length = 4 * boards := by
  simp [Memory.frameBytes]

theorem Memory.getElem?_bytes (m : Memory) (n i : Nat) :
    (m.bytes n)[i]? = if i < n then some (m.read i) else none := by
  simp only [Memory.bytes, List.getElem?_map]
  split <;> simp [*]

end Sys2Proof.Machine
end

