-- ==== Sys2Proof/Laws/Mapper.lean ====
section
/-!
SUPPORT. The index mapper, and the canvas bits that painting and drawing a bar leave.
-/

namespace Sys2Proof.Machine

/-- Board and cell of a logical position (41_mapping.md R122). -/
theorem phys0_eq (L : Nat) : phys0 L = 32 * (L / 30) + L % 30 := by
  rw [phys0]; omega

@[simp] theorem adj1_zero : adj1 0 = 0 := rfl

/-- A bar of one LED or more ends one past its last LED (41_mapping.md R125). -/
theorem adj1_succ (L : Nat) : adj1 (L + 1) = phys0 L + 1 := by
  simp only [adj1, phys0, Nat.add_one_ne_zero, if_false, Nat.add_sub_cancel]; omega

@[simp] theorem phys0InRange_iff (boards L : Nat) : phys0InRange boards L = true ↔ L < 30 * boards := by
  rw [phys0InRange, decide_eq_true_iff, phys0_eq]; omega

@[simp] theorem adj1InRange_iff (boards bar : Nat) : adj1InRange boards bar = true ↔ bar ≤ 30 * boards := by
  rw [adj1InRange, decide_eq_true_iff]
  cases bar with
  | zero => simp
  | succ L => rw [adj1_succ, phys0_eq]; omega

/-! ### Bits of a byte -/

theorem getLsbD_setBit (b : Byte) (k j : Nat) (v : Bool) (hk : k < 8) :
    (setBit b k v).getLsbD j = if j = k then v else b.getLsbD j := by
  have hbit : (1#8 <<< k).getLsbD j = decide (j = k) := by
    rw [BitVec.getLsbD_shiftLeft]
    by_cases h : j = k
    · subst h; simp [hk]
    · by_cases h' : k ≤ j
      · have : j - k ≠ 0 := by omega
        simp [h, BitVec.getLsbD_one, this]
      · have : j < k := by omega
        simp [h, this]
  rw [setBit]
  cases v
  · rw [if_neg (by simp), BitVec.getLsbD_and, BitVec.getLsbD_not, hbit]
    by_cases h : j = k
    · subst h; simp [hk]
    · by_cases h8 : j < 8
      · simp [h, h8]
      · simp [h, BitVec.getLsbD_of_ge b j (by omega)]
  · rw [if_pos rfl, BitVec.getLsbD_or, hbit]
    by_cases h : j = k <;> simp [h]

theorem getLsbD_lowMask (k j : Nat) (hk : k < 8) : (lowMask k).getLsbD j = decide (j < k) := by
  have : ∀ k : Fin 8, ∀ j : Fin 8, (lowMask k).getLsbD j = decide (j.val < k.val) := by decide
  by_cases hj : j < 8
  · exact this ⟨k, hk⟩ ⟨j, hj⟩
  · rw [BitVec.getLsbD_of_ge _ j (by omega)]; simp; omega

/-! ### Bits of the canvas (20_memory.md R51) -/

/-- The stored bit at a physical position. -/
def Memory.bit (m : Memory) (p : Nat) : Bool := (m.read (p / 8)).getLsbD (p % 8)

/-- `BitWrite` changes one physical position. -/
theorem Memory.bit_bitWrite (m : Memory) (p q : Nat) (v : Bool) :
    (m.bitWrite p v).bit q = if q = p then v else m.bit q := by
  simp only [Memory.bit, Memory.bitWrite, Memory.read_write]
  by_cases h : q / 8 = p / 8
  · rw [if_pos h, getLsbD_setBit _ _ _ _ (Nat.mod_lt _ (by omega)), h]
    by_cases h' : q % 8 = p % 8
    · rw [if_pos h', if_pos (by omega)]
    · rw [if_neg h', if_neg (by rintro rfl; exact h' rfl)]
  · rw [if_neg h, if_neg (by rintro rfl; exact h rfl)]

/-- Painting a logical position changes its physical position, in range, and nothing else. -/
theorem Memory.bit_paint (m : Memory) (boards L q : Nat) (v : Bool) :
    (m.paint boards L v).bit q = if L < 30 * boards ∧ q = phys0 L then v else m.bit q := by
  rw [Memory.paint]
  by_cases h : L < 30 * boards
  · rw [if_pos (by simpa using h), Memory.bit_bitWrite]; simp [h]
  · rw [if_neg (by simpa using h)]; simp [h]

/-- The bar's canvas holds exactly the positions below `a` (42_canvas_ops.md R144). -/
theorem Memory.bit_drawBar (m : Memory) (boards a q : Nat) (hq : q < 32 * boards) :
    (m.drawBar boards a).bit q = decide (q < a) := by
  simp only [Memory.bit, Memory.drawBar, Memory.read_write, Memory.read_writeBelow]
  by_cases h : q / 8 = a / 8
  · rw [if_pos h, getLsbD_lowMask _ _ (Nat.mod_lt _ (by omega))]
    exact decide_eq_decide.mpr (by omega)
  · rw [if_neg h]
    by_cases h' : q / 8 < a / 8
    · have h8 : q % 8 < 8 := Nat.mod_lt _ (by omega)
      have hff : ∀ j : Fin 8, (0xFF#8).getLsbD j = true := by decide
      rw [if_pos h', hff ⟨q % 8, h8⟩]
      exact (decide_eq_true (by omega)).symm
    · rw [if_neg h', if_pos (by omega)]
      simp; omega

/-- The peak is an OR on top of the bar (42_canvas_ops.md R145). -/
theorem Memory.bit_drawPeak (m : Memory) (boards peak q : Nat) :
    (m.drawPeak boards peak).bit q =
      (m.bit q || decide (1 ≤ peak ∧ peak ≤ 30 * boards ∧ q = phys0 (peak - 1))) := by
  rw [Memory.drawPeak]
  by_cases h : peak = 0
  · simp [h]
  · rw [if_neg h, Memory.bit_paint]
    by_cases h' : peak - 1 < 30 * boards ∧ q = phys0 (peak - 1)
    · have : 1 ≤ peak ∧ peak ≤ 30 * boards ∧ q = phys0 (peak - 1) := ⟨by omega, by omega, h'.2⟩
      simp [h', this]
    · have : ¬(1 ≤ peak ∧ peak ≤ 30 * boards ∧ q = phys0 (peak - 1)) := fun ⟨a, b, c⟩ => h' ⟨by omega, c⟩
      rw [if_neg h', decide_eq_false this, Bool.or_false]

/-! ### Addresses the commands write stay in the canvas (41_mapping.md R126, R129) -/

theorem Memory.below_paint {m : Memory} (boards L : Nat) (v : Bool) (h : m.Below (4 * boards)) :
    (m.paint boards L v).Below (4 * boards) := by
  rw [Memory.paint]
  split
  · next hr =>
    rw [phys0InRange, decide_eq_true_iff] at hr
    exact Memory.below_write _ h (by omega)
  · exact h

theorem Memory.below_drawBar {m : Memory} (boards a : Nat) (h : m.Below (4 * boards)) (ha : a / 8 < 4 * boards) :
    (m.drawBar boards a).Below (4 * boards) :=
  Memory.below_write _ (Memory.below_writeBelow _ (Memory.below_writeBelow _ h (Nat.le_refl _)) (by omega)) ha

theorem Memory.below_drawPeak {m : Memory} (boards peak : Nat) (h : m.Below (4 * boards)) :
    (m.drawPeak boards peak).Below (4 * boards) := by
  rw [Memory.drawPeak]
  split
  · exact h
  · exact Memory.below_paint _ _ _ h

/-- An in-range FILL's partial byte is a canvas byte, where there is a board. -/
theorem adj1_div_lt {boards bar : Nat} (hb : 1 ≤ boards) (h : adj1InRange boards bar = true) :
    adj1 bar / 8 < 4 * boards := by
  rw [adj1InRange_iff] at h
  cases bar with
  | zero => simp; omega
  | succ L => rw [adj1_succ, phys0_eq]; omega

end Sys2Proof.Machine
end

