-- ==== Sys2Proof/Laws/State.lean ====
section
/-!
SUPPORT. What each update of the state leaves in each field.
-/

namespace Sys2Proof.Machine

/-! ### `accept` -/

@[simp] theorem accept_program (r : Response) (s : State) : (accept r s).program = s.program :=
  rfl
@[simp] theorem accept_ci (r : Response) (s : State) : (accept r s).ci = s.ci + 1 :=
  rfl
@[simp] theorem accept_initState (r : Response) (s : State) : (accept r s).initState = s.initState :=
  rfl
@[simp] theorem accept_bc (r : Response) (s : State) : (accept r s).bc = s.bc :=
  rfl
@[simp] theorem accept_selPin (r : Response) (s : State) : (accept r s).selPin = s.selPin :=
  rfl
@[simp] theorem accept_canvas (r : Response) (s : State) : (accept r s).canvas = s.canvas :=
  rfl
@[simp] theorem accept_sel (r : Response) (s : State) : (accept r s).sel = s.sel :=
  rfl
@[simp] theorem accept_out (r : Response) (s : State) : (accept r s).out = s.out :=
  rfl
@[simp] theorem accept_frameSources (r : Response) (s : State) : (accept r s).frameSources = s.frameSources :=
  rfl
@[simp] theorem accept_responses (r : Response) (s : State) : (accept r s).responses = s.responses ++ [r] :=
  rfl
@[simp] theorem accept_faultCause (r : Response) (s : State) : (accept r s).faultCause = s.faultCause :=
  rfl
@[simp] theorem accept_faultWord (r : Response) (s : State) : (accept r s).faultWord = s.faultWord :=
  rfl

/-! ### `recordFault` -/

@[simp] theorem recordFault_program (c : FaultCause) (w : Word) (s : State) : (recordFault c w s).program = s.program :=
  rfl
@[simp] theorem recordFault_ci (c : FaultCause) (w : Word) (s : State) : (recordFault c w s).ci = s.ci :=
  rfl
@[simp] theorem recordFault_initState (c : FaultCause) (w : Word) (s : State) : (recordFault c w s).initState = s.initState :=
  rfl
@[simp] theorem recordFault_bc (c : FaultCause) (w : Word) (s : State) : (recordFault c w s).bc = s.bc :=
  rfl
@[simp] theorem recordFault_selPin (c : FaultCause) (w : Word) (s : State) : (recordFault c w s).selPin = s.selPin :=
  rfl
@[simp] theorem recordFault_canvas (c : FaultCause) (w : Word) (s : State) : (recordFault c w s).canvas = s.canvas :=
  rfl
@[simp] theorem recordFault_sel (c : FaultCause) (w : Word) (s : State) : (recordFault c w s).sel = s.sel :=
  rfl
@[simp] theorem recordFault_out (c : FaultCause) (w : Word) (s : State) : (recordFault c w s).out = s.out :=
  rfl
@[simp] theorem recordFault_frameSources (c : FaultCause) (w : Word) (s : State) : (recordFault c w s).frameSources = s.frameSources :=
  rfl
@[simp] theorem recordFault_responses (c : FaultCause) (w : Word) (s : State) : (recordFault c w s).responses = s.responses :=
  rfl
@[simp] theorem recordFault_faultCause (c : FaultCause) (w : Word) (s : State) : (recordFault c w s).faultCause = c.code :=
  rfl
@[simp] theorem recordFault_faultWord (c : FaultCause) (w : Word) (s : State) : (recordFault c w s).faultWord = w :=
  rfl

/-! ### `setCanvas` -/

@[simp] theorem setCanvas_program (m : Memory) (s : State) : (setCanvas m s).program = s.program :=
  rfl
@[simp] theorem setCanvas_ci (m : Memory) (s : State) : (setCanvas m s).ci = s.ci :=
  rfl
@[simp] theorem setCanvas_initState (m : Memory) (s : State) : (setCanvas m s).initState = s.initState :=
  rfl
@[simp] theorem setCanvas_bc (m : Memory) (s : State) : (setCanvas m s).bc = s.bc :=
  rfl
@[simp] theorem setCanvas_selPin (m : Memory) (s : State) : (setCanvas m s).selPin = s.selPin :=
  rfl
@[simp] theorem setCanvas_canvas (m : Memory) (s : State) : (setCanvas m s).canvas = some m :=
  rfl
@[simp] theorem setCanvas_sel (m : Memory) (s : State) : (setCanvas m s).sel = s.sel :=
  rfl
@[simp] theorem setCanvas_out (m : Memory) (s : State) : (setCanvas m s).out = s.out :=
  rfl
@[simp] theorem setCanvas_frameSources (m : Memory) (s : State) : (setCanvas m s).frameSources = s.frameSources :=
  rfl
@[simp] theorem setCanvas_responses (m : Memory) (s : State) : (setCanvas m s).responses = s.responses :=
  rfl
@[simp] theorem setCanvas_faultCause (m : Memory) (s : State) : (setCanvas m s).faultCause = s.faultCause :=
  rfl
@[simp] theorem setCanvas_faultWord (m : Memory) (s : State) : (setCanvas m s).faultWord = s.faultWord :=
  rfl

/-! ### `emit` -/

@[simp] theorem emit_program (e : Event) (s : State) : (emit e s).program = s.program :=
  rfl
@[simp] theorem emit_ci (e : Event) (s : State) : (emit e s).ci = s.ci :=
  rfl
@[simp] theorem emit_initState (e : Event) (s : State) : (emit e s).initState = s.initState :=
  rfl
@[simp] theorem emit_bc (e : Event) (s : State) : (emit e s).bc = s.bc :=
  rfl
@[simp] theorem emit_selPin (e : Event) (s : State) : (emit e s).selPin = s.selPin :=
  rfl
@[simp] theorem emit_canvas (e : Event) (s : State) : (emit e s).canvas = s.canvas :=
  rfl
@[simp] theorem emit_sel (e : Event) (s : State) : (emit e s).sel = s.sel :=
  rfl
@[simp] theorem emit_out (e : Event) (s : State) : (emit e s).out = s.out ++ [e] :=
  rfl
@[simp] theorem emit_frameSources (e : Event) (s : State) : (emit e s).frameSources = s.frameSources :=
  rfl
@[simp] theorem emit_responses (e : Event) (s : State) : (emit e s).responses = s.responses :=
  rfl
@[simp] theorem emit_faultCause (e : Event) (s : State) : (emit e s).faultCause = s.faultCause :=
  rfl
@[simp] theorem emit_faultWord (e : Event) (s : State) : (emit e s).faultWord = s.faultWord :=
  rfl

/-! ### `driveSel` -/

@[simp] theorem driveSel_program (l : Level) (s : State) : (driveSel l s).program = s.program :=
  rfl
@[simp] theorem driveSel_ci (l : Level) (s : State) : (driveSel l s).ci = s.ci :=
  rfl
@[simp] theorem driveSel_initState (l : Level) (s : State) : (driveSel l s).initState = s.initState :=
  rfl
@[simp] theorem driveSel_bc (l : Level) (s : State) : (driveSel l s).bc = s.bc :=
  rfl
@[simp] theorem driveSel_selPin (l : Level) (s : State) : (driveSel l s).selPin = s.selPin :=
  rfl
@[simp] theorem driveSel_canvas (l : Level) (s : State) : (driveSel l s).canvas = s.canvas :=
  rfl
@[simp] theorem driveSel_sel (l : Level) (s : State) : (driveSel l s).sel = .driven l :=
  rfl
@[simp] theorem driveSel_out (l : Level) (s : State) : (driveSel l s).out = s.out ++ [.selDrive l] :=
  rfl
@[simp] theorem driveSel_frameSources (l : Level) (s : State) : (driveSel l s).frameSources = s.frameSources :=
  rfl
@[simp] theorem driveSel_responses (l : Level) (s : State) : (driveSel l s).responses = s.responses :=
  rfl
@[simp] theorem driveSel_faultCause (l : Level) (s : State) : (driveSel l s).faultCause = s.faultCause :=
  rfl
@[simp] theorem driveSel_faultWord (l : Level) (s : State) : (driveSel l s).faultWord = s.faultWord :=
  rfl

/-! ### `noteFrame` -/

@[simp] theorem noteFrame_program (src : FrameSource) (s : State) : (noteFrame src s).program = s.program :=
  rfl
@[simp] theorem noteFrame_ci (src : FrameSource) (s : State) : (noteFrame src s).ci = s.ci :=
  rfl
@[simp] theorem noteFrame_initState (src : FrameSource) (s : State) : (noteFrame src s).initState = s.initState :=
  rfl
@[simp] theorem noteFrame_bc (src : FrameSource) (s : State) : (noteFrame src s).bc = s.bc :=
  rfl
@[simp] theorem noteFrame_selPin (src : FrameSource) (s : State) : (noteFrame src s).selPin = s.selPin :=
  rfl
@[simp] theorem noteFrame_canvas (src : FrameSource) (s : State) : (noteFrame src s).canvas = s.canvas :=
  rfl
@[simp] theorem noteFrame_sel (src : FrameSource) (s : State) : (noteFrame src s).sel = s.sel :=
  rfl
@[simp] theorem noteFrame_out (src : FrameSource) (s : State) : (noteFrame src s).out = s.out :=
  rfl
@[simp] theorem noteFrame_frameSources (src : FrameSource) (s : State) : (noteFrame src s).frameSources = s.frameSources ++ [src] :=
  rfl
@[simp] theorem noteFrame_responses (src : FrameSource) (s : State) : (noteFrame src s).responses = s.responses :=
  rfl
@[simp] theorem noteFrame_faultCause (src : FrameSource) (s : State) : (noteFrame src s).faultCause = s.faultCause :=
  rfl
@[simp] theorem noteFrame_faultWord (src : FrameSource) (s : State) : (noteFrame src s).faultWord = s.faultWord :=
  rfl

/-! ### `present` -/

@[simp] theorem State.present_program (s : State) (w : Word) : (s.present w).program = s.program ++ [w] :=
  rfl
@[simp] theorem State.present_ci (s : State) (w : Word) : (s.present w).ci = s.ci :=
  rfl
@[simp] theorem State.present_initState (s : State) (w : Word) : (s.present w).initState = s.initState :=
  rfl
@[simp] theorem State.present_bc (s : State) (w : Word) : (s.present w).bc = s.bc :=
  rfl
@[simp] theorem State.present_selPin (s : State) (w : Word) : (s.present w).selPin = s.selPin :=
  rfl
@[simp] theorem State.present_canvas (s : State) (w : Word) : (s.present w).canvas = s.canvas :=
  rfl
@[simp] theorem State.present_sel (s : State) (w : Word) : (s.present w).sel = s.sel :=
  rfl
@[simp] theorem State.present_out (s : State) (w : Word) : (s.present w).out = s.out :=
  rfl
@[simp] theorem State.present_frameSources (s : State) (w : Word) : (s.present w).frameSources = s.frameSources :=
  rfl
@[simp] theorem State.present_responses (s : State) (w : Word) : (s.present w).responses = s.responses :=
  rfl
@[simp] theorem State.present_faultCause (s : State) (w : Word) : (s.present w).faultCause = s.faultCause :=
  rfl
@[simp] theorem State.present_faultWord (s : State) (w : Word) : (s.present w).faultWord = s.faultWord :=
  rfl

/-! ### `placeTableWord` -/

@[simp] theorem placeTableWord_program (s : State) (nbits w : Nat) : (placeTableWord s nbits w).program = placeWord s.program s.ci (BitVec.ofNat 40 (w % 2 ^ nbits)) :=
  rfl
@[simp] theorem placeTableWord_ci (s : State) (nbits w : Nat) : (placeTableWord s nbits w).ci = s.ci :=
  rfl
@[simp] theorem placeTableWord_initState (s : State) (nbits w : Nat) : (placeTableWord s nbits w).initState = s.initState :=
  rfl
@[simp] theorem placeTableWord_bc (s : State) (nbits w : Nat) : (placeTableWord s nbits w).bc = s.bc :=
  rfl
@[simp] theorem placeTableWord_selPin (s : State) (nbits w : Nat) : (placeTableWord s nbits w).selPin = s.selPin :=
  rfl
@[simp] theorem placeTableWord_canvas (s : State) (nbits w : Nat) : (placeTableWord s nbits w).canvas = s.canvas :=
  rfl
@[simp] theorem placeTableWord_sel (s : State) (nbits w : Nat) : (placeTableWord s nbits w).sel = s.sel :=
  rfl
@[simp] theorem placeTableWord_out (s : State) (nbits w : Nat) : (placeTableWord s nbits w).out = s.out :=
  rfl
@[simp] theorem placeTableWord_frameSources (s : State) (nbits w : Nat) : (placeTableWord s nbits w).frameSources = s.frameSources :=
  rfl
@[simp] theorem placeTableWord_responses (s : State) (nbits w : Nat) : (placeTableWord s nbits w).responses = s.responses :=
  rfl
@[simp] theorem placeTableWord_faultCause (s : State) (nbits w : Nat) : (placeTableWord s nbits w).faultCause = s.faultCause :=
  rfl
@[simp] theorem placeTableWord_faultWord (s : State) (nbits w : Nat) : (placeTableWord s nbits w).faultWord = s.faultWord :=
  rfl

/-! ### Bytes and frames -/

theorem transmitBytes_eq (bs : List Byte) (s : State) :
    transmitBytes bs s = { s with out := s.out ++ bs.map .tx } := by
  induction bs generalizing s with
  | nil => simp [transmitBytes]
  | cons b bs ih => simp [transmitBytes, ih, emit]

/-- A transfer frame appends its events and its source and leaves the select line high; it changes nothing else. -/
theorem transferFrame_eq (src : FrameSource) (bs : List Byte) (s : State) :
    transferFrame src bs s = { s with
      out := s.out ++ frameEvents bs
      frameSources := s.frameSources ++ [src]
      sel := .driven .high } := by
  simp [transferFrame, noteFrame, driveSel, transmitBytes_eq, emit, frameEvents]

@[simp] theorem transferFrame_program (src : FrameSource) (bs : List Byte) (s : State) : (transferFrame src bs s).program = s.program := by
  rw [transferFrame_eq]
@[simp] theorem transferFrame_ci (src : FrameSource) (bs : List Byte) (s : State) : (transferFrame src bs s).ci = s.ci := by
  rw [transferFrame_eq]
@[simp] theorem transferFrame_initState (src : FrameSource) (bs : List Byte) (s : State) : (transferFrame src bs s).initState = s.initState := by
  rw [transferFrame_eq]
@[simp] theorem transferFrame_bc (src : FrameSource) (bs : List Byte) (s : State) : (transferFrame src bs s).bc = s.bc := by
  rw [transferFrame_eq]
@[simp] theorem transferFrame_selPin (src : FrameSource) (bs : List Byte) (s : State) : (transferFrame src bs s).selPin = s.selPin := by
  rw [transferFrame_eq]
@[simp] theorem transferFrame_canvas (src : FrameSource) (bs : List Byte) (s : State) : (transferFrame src bs s).canvas = s.canvas := by
  rw [transferFrame_eq]
@[simp] theorem transferFrame_sel (src : FrameSource) (bs : List Byte) (s : State) : (transferFrame src bs s).sel = .driven .high := by
  rw [transferFrame_eq]
@[simp] theorem transferFrame_out (src : FrameSource) (bs : List Byte) (s : State) : (transferFrame src bs s).out = s.out ++ frameEvents bs := by
  rw [transferFrame_eq]
@[simp] theorem transferFrame_frameSources (src : FrameSource) (bs : List Byte) (s : State) : (transferFrame src bs s).frameSources = s.frameSources ++ [src] := by
  rw [transferFrame_eq]
@[simp] theorem transferFrame_responses (src : FrameSource) (bs : List Byte) (s : State) : (transferFrame src bs s).responses = s.responses := by
  rw [transferFrame_eq]
@[simp] theorem transferFrame_faultCause (src : FrameSource) (bs : List Byte) (s : State) : (transferFrame src bs s).faultCause = s.faultCause := by
  rw [transferFrame_eq]
@[simp] theorem transferFrame_faultWord (src : FrameSource) (bs : List Byte) (s : State) : (transferFrame src bs s).faultWord = s.faultWord := by
  rw [transferFrame_eq]

/-! ### `configure` -/

@[simp] theorem configure_program (boards pin : BitVec 8) (s : State) : (configure boards pin s).program = s.program :=
  rfl
@[simp] theorem configure_ci (boards pin : BitVec 8) (s : State) : (configure boards pin s).ci = s.ci :=
  rfl
@[simp] theorem configure_initState (boards pin : BitVec 8) (s : State) : (configure boards pin s).initState = .ready :=
  rfl
@[simp] theorem configure_bc (boards pin : BitVec 8) (s : State) : (configure boards pin s).bc = some (boards.setWidth 4) :=
  rfl
@[simp] theorem configure_selPin (boards pin : BitVec 8) (s : State) : (configure boards pin s).selPin = some pin :=
  rfl
@[simp] theorem configure_canvas (boards pin : BitVec 8) (s : State) : (configure boards pin s).canvas = some (Memory.writeBelow [] (4 * boards.toNat) 0x00#8) :=
  rfl
@[simp] theorem configure_sel (boards pin : BitVec 8) (s : State) : (configure boards pin s).sel = .driven .high :=
  rfl
@[simp] theorem configure_out (boards pin : BitVec 8) (s : State) : (configure boards pin s).out = s.out ++ [.selInit pin] :=
  rfl
@[simp] theorem configure_frameSources (boards pin : BitVec 8) (s : State) : (configure boards pin s).frameSources = s.frameSources :=
  rfl
@[simp] theorem configure_responses (boards pin : BitVec 8) (s : State) : (configure boards pin s).responses = s.responses :=
  rfl
@[simp] theorem configure_faultCause (boards pin : BitVec 8) (s : State) : (configure boards pin s).faultCause = s.faultCause :=
  rfl
@[simp] theorem configure_faultWord (boards pin : BitVec 8) (s : State) : (configure boards pin s).faultWord = s.faultWord :=
  rfl

end Sys2Proof.Machine
end

