-- ==== Sys2Proof/Laws/Trace.lean ====
section
/-!
SUPPORT. What a transfer frame adds to the output trace, as the observations see it.
-/

namespace Sys2Proof.Machine

theorem framesFrom_tx (cur bs : List Byte) (es : List Event) :
    framesFrom (some cur) (bs.map .tx ++ es) = framesFrom (some (cur ++ bs)) es := by
  induction bs generalizing cur with
  | nil => simp
  | cons b bs ih => simp [framesFrom, ih]

theorem framesFrom_frame (bs : List Byte) (cur : Option (List Byte)) :
    framesFrom cur (frameEvents bs) = [bs] := by
  cases cur <;> simp [frameEvents, framesFrom, framesFrom_tx]

/-- A frame at the end of a trace is its last frame, whatever came before. -/
theorem framesFrom_append (es : List Event) (cur : Option (List Byte)) (bs : List Byte) :
    framesFrom cur (es ++ frameEvents bs) = framesFrom cur es ++ [bs] := by
  induction es generalizing cur with
  | nil => cases cur <;> simp [framesFrom, framesFrom_frame]
  | cons e es ih =>
    cases e with
    | selInit pin => simp [framesFrom, ih]
    | selDrive l => cases l <;> cases cur <;> simp [framesFrom, ih]
    | tx b => cases cur <;> simp [framesFrom, ih]

@[simp] theorem frames_transferFrame (src : FrameSource) (bs : List Byte) (s : State) :
    (transferFrame src bs s).frames = s.frames ++ [bs] := by
  simp [State.frames, framesFrom_append]

theorem framesFrom_flatMap (fs : List (List Byte)) : framesFrom none (fs.flatMap frameEvents) = fs := by
  induction fs using List.reverseRecOn with
  | nil => rfl
  | append_singleton fs f ih =>
    rw [List.flatMap_append, List.flatMap_singleton, framesFrom_append, ih]

/-- A frame joins the sourced frames, where each frame before it has its source. -/
theorem sourcedFrames_transferFrame {src : FrameSource} {bs : List Byte} {s : State}
    (h : s.frameSources.length = s.frames.length) :
    (transferFrame src bs s).sourcedFrames = s.sourcedFrames ++ [(src, bs)] := by
  simp [State.sourcedFrames, List.zip_append h]

/-- A FLUSH frame is the last FLUSH frame. -/
theorem lastFlushFrame_flush {bs : List Byte} {s : State} (h : s.frameSources.length = s.frames.length) :
    (transferFrame .flush bs s).lastFlushFrame = some bs := by
  simp [State.lastFlushFrame, sourcedFrames_transferFrame h]

/-- A SENDRAW frame is no FLUSH frame. -/
theorem lastFlushFrame_sendraw {bs : List Byte} {s : State} (h : s.frameSources.length = s.frames.length) :
    (transferFrame .sendraw bs s).lastFlushFrame = s.lastFlushFrame := by
  simp [State.lastFlushFrame, sourcedFrames_transferFrame h]

theorem lineAfter_append (l : SelLine) (es es' : List Event) :
    lineAfter l (es ++ es') = lineAfter (lineAfter l es) es' := by
  induction es generalizing l with
  | nil => rfl
  | cons e es ih => cases e <;> simp [lineAfter, ih]

theorem lineAfter_frame (l : SelLine) (bs : List Byte) : lineAfter l (frameEvents bs) = .driven .high := by
  simp [frameEvents, lineAfter, lineAfter_append]

theorem txCount_append (es es' : List Event) : txCount (es ++ es') = txCount es + txCount es' := by
  induction es with
  | nil => simp [txCount]
  | cons e es ih => cases e <;> simp [txCount, ih]; omega

theorem txCount_frame (bs : List Byte) : txCount (frameEvents bs) = bs.length := by
  have tx : ∀ bs : List Byte, txCount (bs.map .tx) = bs.length := by
    intro bs
    induction bs with
    | nil => rfl
    | cons b bs ih => simp [txCount, ih]
  simp [frameEvents, txCount, txCount_append, tx]

end Sys2Proof.Machine
end

