-- ==== Sys2Proof/Laws/Observe.lean ====
section
/-!
SUPPORT. The observations of a state whose canvas exists, and what the storage lemmas say of them.
-/

namespace Sys2Proof.Machine

variable {s : State} {b : BitVec 4} {m : Memory}

theorem canvasBytes_eq (hb : s.bc = some b) (hm : s.canvas = some m) :
    s.canvasBytes = some (m.bytes (4 * b.toNat)) := by
  rw [State.canvasBytes, hb, hm]

theorem canvasByte_eq (hb : s.bc = some b) (hm : s.canvas = some m) (i : Nat) :
    s.canvasByte i = if i < 4 * b.toNat then some (m.read i) else none := by
  rw [State.canvasByte, hb, hm]

theorem canvasBit_eq (hb : s.bc = some b) (hm : s.canvas = some m) (p : Nat) :
    s.canvasBit p = if p < 32 * b.toNat then some (m.bit p) else none := by
  rw [State.canvasBit, canvasByte_eq hb hm]
  by_cases h : p < 32 * b.toNat
  · rw [if_pos h, if_pos (by omega)]; rfl
  · rw [if_neg h, if_neg (by omega)]; rfl

/-- A zeroed canvas lists no cell. -/
@[simp] theorem Memory.writeBelow_nil_zero (n : Nat) : Memory.writeBelow [] n 0x00#8 = [] := by
  induction n with
  | zero => rfl
  | succ n ih => rw [Memory.writeBelow, ih]; rfl

theorem Memory.bytes_nil (n : Nat) : Memory.bytes [] n = List.replicate n 0x00#8 := by
  rw [Memory.bytes, List.eq_replicate_iff]; simp [Memory.unlisted]

/-- An address above every cell reads as unlisted. -/
theorem Memory.read_of_below {n a : Nat} (h : m.Below n) (ha : n ≤ a) : m.read a = Memory.unlisted := by
  induction m with
  | nil => rfl
  | cons c m ih =>
    have := h c (by simp)
    rw [Memory.read, if_neg (by omega)]
    exact ih (fun c hc => h c (by simp [hc]))

/-- Two canvases of `n` boards with the same bits are the same data. -/
theorem Memory.ext_of_bits {m' : Memory} {n : Nat} (hw : m.wf = true) (hw' : m'.wf = true) (hl : m.Below (4 * n))
    (hl' : m'.Below (4 * n)) (h : ∀ p, p < 32 * n → m.bit p = m'.bit p) : m = m' := by
  refine Memory.ext_of_wf hw hw' (fun a => ?_)
  by_cases ha : a < 4 * n
  · apply BitVec.eq_of_getLsbD_eq
    intro j hj
    have := h (8 * a + j) (by omega)
    simp only [Memory.bit] at this
    rwa [show (8 * a + j) / 8 = a by omega, show (8 * a + j) % 8 = j by omega] at this
  · rw [Memory.read_of_below hl (by omega), Memory.read_of_below hl' (by omega)]

/-! ### The canvas number (20_memory.md R53) -/

theorem bytesNumber_lt (bs : List Byte) : bytesNumber bs < 256 ^ bs.length := by
  induction bs with
  | nil => simp [bytesNumber]
  | cons x bs ih =>
    have := x.isLt
    simp only [bytesNumber, List.length_cons, Nat.pow_succ]; omega

/-- Byte `i` of the canvas number. -/
theorem bytesNumber_div_mod (bs : List Byte) (i : Nat) (hi : i < bs.length) :
    bytesNumber bs / 256 ^ i % 256 = (bs.getD i 0#8).toNat := by
  induction bs generalizing i with
  | nil => simp at hi
  | cons x bs ih =>
    have hx := x.isLt
    cases i with
    | zero => simp [bytesNumber]; omega
    | succ i =>
      have : (x.toNat + 256 * bytesNumber bs) / 256 ^ (i + 1) = bytesNumber bs / 256 ^ i := by
        rw [Nat.pow_succ', ← Nat.div_div_eq_div_mul]; congr 1; omega
      simp only [bytesNumber]; rw [this, ih i (by simpa using hi)]; simp

end Sys2Proof.Machine
end

