-- ==== Sys2Proof/Laws/Chain.lean ====
section
/-!
SUPPORT. What a frame leaves in the chain's registers, and which serial bit drives a cell.
-/

namespace Sys2Proof.Machine

/-! ### Registers -/

theorem settled_map_some (bs : List Byte) : settled (bs.map some) = some bs := by
  induction bs with
  | nil => rfl
  | cons b bs ih => simp [settled, ih]

theorem settled_unsettledBytes {n : Nat} (h : 1 ≤ n) : settled (unsettledBytes n) = none := by
  obtain ⟨k, rfl⟩ : ∃ k, n = k + 1 := ⟨n - 1, by omega⟩
  rfl

/-- Bytes sent while the window is open: each pushes the shift registers one place on. -/
theorem Chain.foldl_tx (n : Nat) (bs : List Byte) (k : Nat) (sh la : List (Option Byte)) :
    (bs.map Event.tx).foldl (Chain.apply n) ⟨some k, sh, la⟩ =
      ⟨some (k + bs.length), (bs.reverse.map some ++ sh).take sh.length, la⟩ := by
  induction bs generalizing k sh with
  | nil => simp
  | cons b bs ih =>
    simp only [List.map_cons, List.foldl_cons, Chain.apply, Option.map_some, ih, List.length_cons]
    refine congrArg₂ (fun a b => Chain.mk a b la) (by congr 1; omega) ?_
    simp [List.take_append, List.dropLast_eq_take, List.take_take]

/-- A chain that no window is open on, with its registers of full length. -/
def Chain.Idle (n : Nat) (c : Chain) : Prop := c.window = none ∧ c.shift.length = 4 * n

theorem Chain.idle_unsettled (n : Nat) : Chain.Idle n (Chain.unsettled n) := ⟨rfl, by simp [unsettled, unsettledBytes]⟩

/-- A frame that fills the chain leaves its bytes, last first, in the registers and the latches. -/
theorem Chain.foldl_frame {n : Nat} {c : Chain} {bs : List Byte} (h : Chain.Idle n c) (hl : bs.length = 4 * n) :
    (frameEvents bs).foldl (Chain.apply n) c = ⟨none, bs.reverse.map some, bs.reverse.map some⟩ := by
  obtain ⟨w, sh, la⟩ := c
  obtain ⟨rfl, hs⟩ : w = none ∧ sh.length = 4 * n := h
  have ht : ((bs.map some).reverse ++ sh).take sh.length = (bs.map some).reverse :=
    List.take_left' (by simp [hs, hl])
  simp [frameEvents, Chain.apply, Chain.foldl_tx, ht, hl]

/-- A frame that does not fill the chain leaves nothing settled. -/
theorem Chain.foldl_short_frame {n : Nat} {c : Chain} {bs : List Byte} (h : Chain.Idle n c) (hl : bs.length ≠ 4 * n) :
    (frameEvents bs).foldl (Chain.apply n) c = Chain.unsettled n := by
  obtain ⟨w, sh, la⟩ := c
  obtain ⟨rfl, hs⟩ : w = none ∧ sh.length = 4 * n := h
  simp [frameEvents, Chain.apply, Chain.foldl_tx, hl]

theorem Chain.idle_frame {n : Nat} {c : Chain} (bs : List Byte) (h : Chain.Idle n c) :
    Chain.Idle n ((frameEvents bs).foldl (Chain.apply n) c) := by
  by_cases hl : bs.length = 4 * n
  · rw [Chain.foldl_frame h hl]; exact ⟨rfl, by simp [hl]⟩
  · rw [Chain.foldl_short_frame h hl]; exact Chain.idle_unsettled n

/-- A trace of `SelInit` and whole frames leaves the chain idle. -/
theorem Chain.idle_trace (n : Nat) (pin : BitVec 8) (fs : List (List Byte)) :
    Chain.Idle n ((Event.selInit pin :: fs.flatMap frameEvents).foldl (Chain.apply n) (Chain.unsettled n)) := by
  induction fs using List.reverseRecOn with
  | nil => exact Chain.idle_unsettled n
  | append_singleton fs f ih =>
    rw [List.flatMap_append, List.flatMap_singleton, ← List.cons_append, List.foldl_append]
    exact Chain.idle_frame f ih

/-! ### Cells -/

/-- Under a placement that meets the constraint, one serial bit lands in each LED's cell: that of its position. -/
theorem Placement.landing_of_fits {order : Config.BitOrder} {place : Placement} (h : place.Fits order) {c : Nat}
    (hc : c < 30) : landing place c = [8 * (c / 8) + sentBit order (c % 8)] := by
  have hp : landing place c = (List.range 32).filter (fun q => 8 * (q / 8) + sentBit order (q % 8) == c) := by
    refine List.filter_congr (fun q hq => ?_)
    have hq : q < 32 := by simpa using hq
    have := h (q / 8) (by omega) (q % 8) (by omega)
    split at this
    · rw [this]
    · rw [Bool.eq_iff_iff]; simp only [beq_iff_eq]; omega
  rw [hp]
  clear hp h
  revert c
  cases order <;> decide

/-- A cell of an unsettled chain shows nothing settled. -/
theorem cell_unsettled (n : Nat) (order : Config.BitOrder) (place : Placement) (k c : Nat) :
    (Chain.unsettled n).cell order place k c = none := by
  rw [Chain.cell]
  split
  · next q _ =>
    by_cases h : 4 * k + q / 8 < 4 * n <;> simp [Chain.unsettled, unsettledBytes, h]
  · rfl

/-- The serial bit counted as `q` of a byte is the bit at its position. -/
theorem serialBits_getElem? (order : Config.BitOrder) (b : Byte) {n : Nat} (h : n < 8) :
    (serialBits order b)[n]? = some (b.getLsbD (sentBit order n)) := by
  simp [serialBits, h]

end Sys2Proof.Machine
end

