-- ==== Sys2Proof/Laws/Decode.lean ====
section
/-!
SUPPORT. The fields of a command word and of an encoded command, as numbers.
-/

namespace Sys2Proof

theorem field_toNat (w : Word) (lo width : Nat) : (field w lo width).toNat = w.toNat / 2 ^ lo % 2 ^ width := by
  simp [field, Nat.shiftRight_eq_div_pow]

theorem toNat_append_eq {n m : Nat} (x : BitVec n) (y : BitVec m) :
    (x ++ y).toNat = x.toNat * 2 ^ m + y.toNat := by
  rw [BitVec.toNat_append, Nat.shiftLeft_eq, Nat.mul_comm, Nat.two_pow_add_eq_or_of_lt y.isLt]

/-- The number of an encoded command: the formulas of 30_encoding.md R85. -/
theorem encode_toNat (i : Instr) :
    (encode i).toNat =
      match i with
      | .init boards pin => 0x01 * 2 ^ 32 + pin.toNat * 2 ^ 8 + boards.toNat
      | .clear => 0x02 * 2 ^ 32
      | .paint pos v => 0x03 * 2 ^ 32 + v.toNat * 2 ^ 16 + pos.toNat
      | .fill bar peak => 0x04 * 2 ^ 32 + peak.toNat * 2 ^ 16 + bar.toNat
      | .flush => 0x05 * 2 ^ 32
      | .sendraw value => 0x06 * 2 ^ 32 + value.toNat := by
  cases i with
  | init boards pin => simp only [encode, toNat_append_eq, BitVec.toNat_ofNat]; omega
  | clear => rfl
  | paint pos v =>
    simp only [encode, toNat_append_eq, BitVec.toNat_ofNat, BitVec.toNat_ofBool]; omega
  | fill bar peak => simp only [encode, toNat_append_eq, BitVec.toNat_ofNat]; omega
  | flush => rfl
  | sendraw value => simp only [encode, toNat_append_eq, BitVec.toNat_ofNat]

/-- Every command's operands fit: the types of `Instr` see to it. -/
theorem Instr.wellFormed_eq (i : Instr) : i.wellFormed = true := by
  cases i with
  | init boards pin => simp [Instr.wellFormed, Instr.toCall, Call.wellFormed, boards.isLt, pin.isLt]
  | clear => rfl
  | paint pos v => simp [Instr.wellFormed, Instr.toCall, Call.wellFormed, pos.isLt, Bool.toNat_le]
  | fill bar peak => simp [Instr.wellFormed, Instr.toCall, Call.wellFormed, bar.isLt, peak.isLt]
  | flush => rfl
  | sendraw value => simp [Instr.wellFormed, Instr.toCall, Call.wellFormed, value.isLt]

theorem opField_eq_iff (w : Word) (op : BitVec 8) : opField w = op ↔ w.toNat / 2 ^ 32 = op.toNat := by
  have h : (opField w).toNat = w.toNat / 2 ^ 32 := by
    rw [opField, field_toNat]; have := w.isLt; omega
  rw [← h, BitVec.toNat_inj]

theorem field_eq_zero_iff (w : Word) (lo width : Nat) :
    field w lo width = 0#width ↔ w.toNat / 2 ^ lo % 2 ^ width = 0 := by
  rw [← field_toNat, ← BitVec.toNat_inj]; simp

/-- Keeping the bits from `k` up, as a number. -/
theorem and_highMask_toNat (w : Word) (k : Nat) :
    (w &&& (BitVec.allOnes 40 <<< k)).toNat = w.toNat / 2 ^ k * 2 ^ k := by
  have h : w &&& (BitVec.allOnes 40 <<< k) = (w >>> k) <<< k := by
    apply BitVec.eq_of_getLsbD_eq
    intro i hi
    simp only [BitVec.getLsbD_and, BitVec.getLsbD_shiftLeft, BitVec.getLsbD_ushiftRight, BitVec.getLsbD_allOnes, hi,
      decide_true, Bool.true_and]
    by_cases h : i < k
    · simp [h]
    · simp [h, show k + (i - k) = i by omega, show i - k < 40 by omega]
  rw [h, BitVec.toNat_shiftLeft, BitVec.toNat_ushiftRight, Nat.shiftRight_eq_div_pow, Nat.shiftLeft_eq]
  exact Nat.mod_eq_of_lt (Nat.lt_of_le_of_lt (Nat.div_mul_le_self _ _) w.isLt)

/-- A row whose mask keeps the bits from `k` up, as arithmetic. -/
theorem Row.matches_iff (r : Row) (k : Nat) (w : Word) (h : r.mask = BitVec.allOnes 40 <<< k) :
    r.matches w = true ↔ w.toNat / 2 ^ k * 2 ^ k = r.pattern.toNat := by
  rw [Row.matches, beq_iff_eq, ← BitVec.toNat_inj, h, and_highMask_toNat]

end Sys2Proof
end

