-- ==== Sys2Proof/Laws/Ops.lean ====
section
/-!
SUPPORT. What each shared gate can answer, and what each command and each step can do.
-/

namespace Sys2Proof.Machine

variable {s t : State} {k : Host.Outcome State Fault Refusal}

/-! ### Gates -/

theorem unlessStuck_clear (h : s.faultCause = 0#3) : unlessStuck s k = k := if_pos h

theorem unlessStuck_stuck (h : s.faultCause ≠ 0#3) : unlessStuck s k = .fault (.stuck s.faultCause) := if_neg h

theorem unlessStuck_next (h : unlessStuck s k = .next t) : s.faultCause = 0#3 ∧ k = .next t := by
  rw [unlessStuck] at h
  split at h
  · exact ⟨‹_›, h⟩
  · cases h

theorem raiseFault_clear {c : FaultCause} {w : Word} (h : s.faultCause = 0#3) :
    raiseFault c w s = .next (recordFault c w s) := unlessStuck_clear h

theorem raiseFault_next {c : FaultCause} {w : Word} (h : raiseFault c w s = .next t) :
    s.faultCause = 0#3 ∧ t = recordFault c w s := by
  have := unlessStuck_next h
  exact ⟨this.1, by simpa using this.2.symm⟩

theorem whenReady_ready {i : Instr} (h : s.faultCause = 0#3) (hr : s.initState = .ready) : whenReady i s k = k := by
  rw [whenReady, unlessStuck_clear h, hr]

theorem whenReady_uninit {i : Instr} (h : s.faultCause = 0#3) (hu : s.initState = .uninit) :
    whenReady i s k = .next (recordFault .notInitialized (encode i) s) := by
  rw [whenReady, unlessStuck_clear h, hu]; exact raiseFault_clear h

theorem whenReady_stuck {i : Instr} (h : s.faultCause ≠ 0#3) : whenReady i s k = .fault (.stuck s.faultCause) :=
  unlessStuck_stuck h

/-- A command's gates let it through in READY, and raise NOT_INITIALIZED in UNINIT. -/
theorem whenReady_next {i : Instr} (h : whenReady i s k = .next t) :
    s.faultCause = 0#3 ∧
      ((s.initState = .uninit ∧ t = recordFault .notInitialized (encode i) s) ∨
        (s.initState = .ready ∧ k = .next t)) := by
  obtain ⟨h0, h⟩ := unlessStuck_next h
  refine ⟨h0, ?_⟩
  cases hs : s.initState with
  | uninit => rw [hs] at h; exact .inl ⟨rfl, (raiseFault_next h).2⟩
  | ready => rw [hs] at h; exact .inr ⟨rfl, h⟩

theorem whenUninit_uninit {i : Instr} (h : s.faultCause = 0#3) (hu : s.initState = .uninit) :
    whenUninit i s k = k := by
  rw [whenUninit, unlessStuck_clear h, hu]

theorem whenUninit_ready {i : Instr} (h : s.faultCause = 0#3) (hr : s.initState = .ready) :
    whenUninit i s k = .next (recordFault .reinit (encode i) s) := by
  rw [whenUninit, unlessStuck_clear h, hr]; exact raiseFault_clear h

theorem whenUninit_stuck {i : Instr} (h : s.faultCause ≠ 0#3) : whenUninit i s k = .fault (.stuck s.faultCause) :=
  unlessStuck_stuck h

/-- INIT's gates let it through in UNINIT, and raise REINIT in READY. -/
theorem whenUninit_next {i : Instr} (h : whenUninit i s k = .next t) :
    s.faultCause = 0#3 ∧
      ((s.initState = .ready ∧ t = recordFault .reinit (encode i) s) ∨
        (s.initState = .uninit ∧ k = .next t)) := by
  obtain ⟨h0, h⟩ := unlessStuck_next h
  refine ⟨h0, ?_⟩
  cases hs : s.initState with
  | uninit => rw [hs] at h; exact .inr ⟨rfl, h⟩
  | ready => rw [hs] at h; exact .inl ⟨rfl, (raiseFault_next h).2⟩

theorem withCanvas_some {f : Nat → Memory → Host.Outcome State Fault Refusal} {b : BitVec 4} {m : Memory}
    (hb : s.bc = some b) (hm : s.canvas = some m) : withCanvas s f = f b.toNat m := by
  rw [withCanvas, hb, hm]

theorem withCanvas_next {f : Nat → Memory → Host.Outcome State Fault Refusal} (h : withCanvas s f = .next t) :
    ∃ b m, s.bc = some b ∧ s.canvas = some m ∧ f b.toNat m = .next t := by
  rw [withCanvas] at h
  split at h
  · cases h
  · next b hb =>
    split at h
    · cases h
    · next m hm => exact ⟨b, m, hb, hm, h⟩

theorem withinCanvas_next {boards index : Nat} (h : withinCanvas boards index k = .next t) :
    index < 4 * boards ∧ k = .next t := by
  rw [withinCanvas] at h
  split at h
  · exact ⟨‹_›, h⟩
  · cases h

/-! ### Commands -/

/-- Everything INIT can do, for either value of ALLOC_MAY_FAIL. -/
theorem initUnder_next {mayFail : Bool} {draw : Nat → Config.AllocOutcome} {boards pin : BitVec 8}
    (h : initUnder mayFail draw boards pin s = .next t) :
    s.faultCause = 0#3 ∧
      ((s.initState = .ready ∧ t = recordFault .reinit (encode (.init boards pin)) s) ∨
        (s.initState = .uninit ∧ t = accept .fail s) ∨
        (s.initState = .uninit ∧ 1 ≤ boards.toNat ∧ boards.toNat ≤ 8 ∧
          t = accept .ok (configure boards pin s))) := by
  obtain ⟨h0, ⟨hr, ht⟩ | ⟨hu, hk⟩⟩ := whenUninit_next h
  · exact ⟨h0, .inl ⟨hr, ht⟩⟩
  · refine ⟨h0, .inr ?_⟩
    split at hk
    · exact .inl ⟨hu, by simpa using hk.symm⟩
    · next hb =>
      simp only [Config.minBoards, Config.maxBoards] at hb
      split at hk
      · exact .inl ⟨hu, by simpa using hk.symm⟩
      · exact .inr ⟨hu, by omega, by omega, by simpa using hk.symm⟩

/-- Everything CLEAR can do. -/
theorem execClear_next (h : execClear s = .next t) :
    s.faultCause = 0#3 ∧
      ((s.initState = .uninit ∧ t = recordFault .notInitialized (encode .clear) s) ∨
        (s.initState = .ready ∧ ∃ b m, s.bc = some b ∧ s.canvas = some m ∧
          t = accept .none (setCanvas (m.writeBelow (4 * b.toNat) 0x00#8) s))) := by
  obtain ⟨h0, h | ⟨hr, hk⟩⟩ := whenReady_next h
  · exact ⟨h0, .inl h⟩
  · obtain ⟨b, m, hb, hm, hk⟩ := withCanvas_next hk
    exact ⟨h0, .inr ⟨hr, b, m, hb, hm, by simpa using hk.symm⟩⟩

/-- Everything PAINT can do. -/
theorem execPaint_next {pos : BitVec 16} {v : Bool} (h : execPaint pos v s = .next t) :
    s.faultCause = 0#3 ∧
      ((s.initState = .uninit ∧ t = recordFault .notInitialized (encode (.paint pos v)) s) ∨
        (s.initState = .ready ∧ ∃ b m, s.bc = some b ∧ s.canvas = some m ∧
          t = accept .none (setCanvas (m.paint b.toNat pos.toNat v) s))) := by
  obtain ⟨h0, h | ⟨hr, hk⟩⟩ := whenReady_next h
  · exact ⟨h0, .inl h⟩
  · obtain ⟨b, m, hb, hm, hk⟩ := withCanvas_next hk
    exact ⟨h0, .inr ⟨hr, b, m, hb, hm, by simpa using hk.symm⟩⟩

/-- Everything FILL can do. -/
theorem execFill_next {bar peak : BitVec 16} (h : execFill bar peak s = .next t) :
    s.faultCause = 0#3 ∧
      ((s.initState = .uninit ∧ t = recordFault .notInitialized (encode (.fill bar peak)) s) ∨
        (s.initState = .ready ∧ ∃ b m, s.bc = some b ∧ s.canvas = some m ∧
          ((adj1InRange b.toNat bar.toNat = false ∧ t = accept .none s) ∨
            (adj1InRange b.toNat bar.toNat = true ∧ adj1 bar.toNat / 8 < 4 * b.toNat ∧
              ∃ d, d = (m.drawBar b.toNat (adj1 bar.toNat)).drawPeak b.toNat peak.toNat ∧
                t = accept .none (transferFrame .flush (d.frameBytes b.toNat) (setCanvas d s)))))) := by
  obtain ⟨h0, h | ⟨hr, hk⟩⟩ := whenReady_next h
  · exact ⟨h0, .inl h⟩
  · obtain ⟨b, m, hb, hm, hk⟩ := withCanvas_next hk
    refine ⟨h0, .inr ⟨hr, b, m, hb, hm, ?_⟩⟩
    split at hk
    · next ha =>
      obtain ⟨hi, hk⟩ := withinCanvas_next hk
      exact .inr ⟨ha, hi, _, rfl, by simpa using hk.symm⟩
    · next ha => exact .inl ⟨Bool.eq_false_of_not_eq_true ha, by simpa using hk.symm⟩

/-- Everything FLUSH can do. -/
theorem execFlush_next (h : execFlush s = .next t) :
    s.faultCause = 0#3 ∧
      ((s.initState = .uninit ∧ t = recordFault .notInitialized (encode .flush) s) ∨
        (s.initState = .ready ∧ ∃ b m, s.bc = some b ∧ s.canvas = some m ∧
          t = accept .none (transferFrame .flush (m.frameBytes b.toNat) s))) := by
  obtain ⟨h0, h | ⟨hr, hk⟩⟩ := whenReady_next h
  · exact ⟨h0, .inl h⟩
  · obtain ⟨b, m, hb, hm, hk⟩ := withCanvas_next hk
    exact ⟨h0, .inr ⟨hr, b, m, hb, hm, by simpa using hk.symm⟩⟩

/-- Everything SENDRAW can do. -/
theorem execSendraw_next {value : BitVec 32} (h : execSendraw value s = .next t) :
    s.faultCause = 0#3 ∧
      ((s.initState = .uninit ∧ t = recordFault .notInitialized (encode (.sendraw value)) s) ∨
        (s.initState = .ready ∧ t = accept .none (transferFrame .sendraw (rawBytes value) s))) := by
  obtain ⟨h0, h | ⟨hr, hk⟩⟩ := whenReady_next h
  · exact ⟨h0, .inl h⟩
  · exact ⟨h0, .inr ⟨hr, by simpa using hk.symm⟩⟩

/-- The ways a command can end in a next state: a fault recorded with the command's own word, or the command
accepted after one of six effects. -/
inductive Effect (i : Instr) (s : State) : State → Prop where
  | reinit (hr : s.initState = .ready) (hi : ∃ boards pin, i = .init boards pin) :
      Effect i s (recordFault .reinit (encode i) s)
  | notInitialized (hu : s.initState = .uninit) (hi : ∀ boards pin, i ≠ .init boards pin) :
      Effect i s (recordFault .notInitialized (encode i) s)
  | initFailed (hu : s.initState = .uninit) : Effect i s (accept .fail s)
  | initDone (boards pin : BitVec 8) (hi : i = .init boards pin) (hu : s.initState = .uninit)
      (h1 : 1 ≤ boards.toNat) (h8 : boards.toNat ≤ 8) : Effect i s (accept .ok (configure boards pin s))
  | noOp (hr : s.initState = .ready) : Effect i s (accept .none s)
  | drawn (m d : Memory) (b : BitVec 4) (hr : s.initState = .ready) (hb : s.bc = some b) (hm : s.canvas = some m)
      (hd : d = m.writeBelow (4 * b.toNat) 0x00#8 ∨ ∃ L v, d = m.paint b.toNat L v) :
      Effect i s (accept .none (setCanvas d s))
  | filled (m d : Memory) (b : BitVec 4) (a peak : Nat) (hr : s.initState = .ready) (hb : s.bc = some b)
      (hm : s.canvas = some m) (ha : a / 8 < 4 * b.toNat) (hd : d = (m.drawBar b.toNat a).drawPeak b.toNat peak) :
      Effect i s (accept .none (transferFrame .flush (d.frameBytes b.toNat) (setCanvas d s)))
  | flushed (m : Memory) (b : BitVec 4) (hr : s.initState = .ready) (hb : s.bc = some b) (hm : s.canvas = some m) :
      Effect i s (accept .none (transferFrame .flush (m.frameBytes b.toNat) s))
  | sent (value : BitVec 32) (hi : i = .sendraw value) (hr : s.initState = .ready) :
      Effect i s (accept .none (transferFrame .sendraw (rawBytes value) s))

/-- A command that answers a next state has one of these effects. -/
theorem exec_effect {i : Instr} (h : exec i s = .next t) : s.faultCause = 0#3 ∧ Effect i s t := by
  cases i with
  | init boards pin =>
    obtain ⟨h0, ⟨hr, rfl⟩ | ⟨hu, rfl⟩ | ⟨hu, h1, h8, rfl⟩⟩ := initUnder_next h
    · exact ⟨h0, .reinit hr ⟨_, _, rfl⟩⟩
    · exact ⟨h0, .initFailed hu⟩
    · exact ⟨h0, .initDone _ _ rfl hu h1 h8⟩
  | clear =>
    obtain ⟨h0, ⟨hu, rfl⟩ | ⟨hr, b, m, hb, hm, rfl⟩⟩ := execClear_next h
    · exact ⟨h0, .notInitialized hu (by simp)⟩
    · exact ⟨h0, .drawn m _ b hr hb hm (.inl rfl)⟩
  | paint pos v =>
    obtain ⟨h0, ⟨hu, rfl⟩ | ⟨hr, b, m, hb, hm, rfl⟩⟩ := execPaint_next h
    · exact ⟨h0, .notInitialized hu (by simp)⟩
    · exact ⟨h0, .drawn m _ b hr hb hm (.inr ⟨_, _, rfl⟩)⟩
  | fill bar peak =>
    obtain ⟨h0, ⟨hu, rfl⟩ | ⟨hr, b, m, hb, hm, ⟨_, rfl⟩ | ⟨_, ha, d, hd, rfl⟩⟩⟩ := execFill_next h
    · exact ⟨h0, .notInitialized hu (by simp)⟩
    · exact ⟨h0, .noOp hr⟩
    · exact ⟨h0, .filled m d b _ _ hr hb hm ha hd⟩
  | flush =>
    obtain ⟨h0, ⟨hu, rfl⟩ | ⟨hr, b, m, hb, hm, rfl⟩⟩ := execFlush_next h
    · exact ⟨h0, .notInitialized hu (by simp)⟩
    · exact ⟨h0, .flushed m b hr hb hm⟩
  | sendraw value =>
    obtain ⟨h0, ⟨hu, rfl⟩ | ⟨hr, rfl⟩⟩ := execSendraw_next h
    · exact ⟨h0, .notInitialized hu (by simp)⟩
    · exact ⟨h0, .sent _ rfl hr⟩

/-- The ways a step can end in a next state. -/
theorem step_next (h : step s = .next t) :
    s.faultCause = 0#3 ∧
      ((presented s = none ∧ t = s) ∨
        ∃ w, presented s = some w ∧
          ((decode w = .illegalOpcode ∧ t = recordFault .illegalOpcode w s) ∨
            (decode w = .reservedBits ∧ t = recordFault .reservedBits w s) ∨
            ∃ i, decode w = .instr i ∧ exec i s = .next t)) := by
  rw [step] at h
  cases hp : presented s with
  | none =>
    rw [hp] at h
    obtain ⟨h0, ht⟩ := unlessStuck_next h
    exact ⟨h0, .inl ⟨rfl, by simpa using ht.symm⟩⟩
  | some w =>
    rw [hp] at h
    cases hd : decode w with
    | illegalOpcode => simp only [hd] at h; exact ⟨(raiseFault_next h).1, .inr ⟨w, rfl, .inl ⟨hd, (raiseFault_next h).2⟩⟩⟩
    | reservedBits =>
      simp only [hd] at h
      exact ⟨(raiseFault_next h).1, .inr ⟨w, rfl, .inr (.inl ⟨hd, (raiseFault_next h).2⟩)⟩⟩
    | instr i => simp only [hd] at h; exact ⟨(exec_effect h).1, .inr ⟨w, rfl, .inr (.inr ⟨i, hd, h⟩)⟩⟩

/-! ### The command port -/

theorem placeWord_get (ws : List Word) (n : Nat) (w : Word) : (placeWord ws n w)[n]? = some w := by
  induction n generalizing ws with
  | zero => cases ws <;> rfl
  | succ n ih => cases ws <;> simpa [placeWord] using ih _

/-- A word placed on the port is the word presented. -/
@[simp] theorem presented_placeTableWord (s : State) (nbits w : Nat) :
    presented (placeTableWord s nbits w) = some (BitVec.ofNat 40 (w % 2 ^ nbits)) := by
  simp [presented, placeWord_get]

end Sys2Proof.Machine
end

