-- ==== Sys2Proof/Laws/PerInstr.lean ====
section
/-!
SUPPORT. What holds of every command as syntax, one lemma for each constructor.
-/

namespace Sys2Proof.Laws.EncodedRow

/-- The command's word matches the row of the opcode table with the command's mnemonic (30_encoding.md R73 to R78). -/
def Statement (i : Instr) : Prop := ∃ r ∈ opcodeTable, r.mnemonic = i.mnemonic ∧ r.matches (encode i) = true

theorem init (boards pin : BitVec 8) : Statement (.init boards pin) := by
  refine ⟨_, .head _, rfl, (Row.matches_iff _ 16 _ (by decide)).mpr ?_⟩
  have := boards.isLt
  have := pin.isLt
  rw [encode_toNat]; simp; omega

theorem clear : Statement .clear := by
  unfold Statement; decide

theorem paint (pos : BitVec 16) (v : Bool) : Statement (.paint pos v) := by
  refine ⟨_, .tail _ (.tail _ (.head _)), rfl, (Row.matches_iff _ 17 _ (by decide)).mpr ?_⟩
  have := pos.isLt
  have := Bool.toNat_le v
  rw [encode_toNat]; simp; omega

theorem fill (bar peak : BitVec 16) : Statement (.fill bar peak) := by
  refine ⟨_, .tail _ (.tail _ (.tail _ (.head _))), rfl, (Row.matches_iff _ 32 _ (by decide)).mpr ?_⟩
  have := bar.isLt
  have := peak.isLt
  rw [encode_toNat]; simp; omega

theorem flush : Statement .flush := by
  unfold Statement; decide

theorem sendraw (value : BitVec 32) : Statement (.sendraw value) := by
  refine ⟨_, .tail _ (.tail _ (.tail _ (.tail _ (.tail _ (.head _))))), rfl,
    (Row.matches_iff _ 32 _ (by decide)).mpr ?_⟩
  have := value.isLt
  rw [encode_toNat]; simp; omega

end Sys2Proof.Laws.EncodedRow
end

