-- ==== Sys2Proof/Laws/Run.lean ====
section
/-!
SUPPORT. What each command answers where its gates let it through, and how a run takes one step.
-/

namespace Sys2Proof.Machine

variable {s t : State} {b : BitVec 4} {m : Memory}

theorem exec_clear_of_ready (h0 : s.faultCause = 0#3) (hr : s.initState = .ready) (hb : s.bc = some b)
    (hm : s.canvas = some m) :
    exec .clear s = .next (accept .none (setCanvas (m.writeBelow (4 * b.toNat) 0x00#8) s)) := by
  show execClear s = _
  rw [execClear, whenReady_ready h0 hr, withCanvas_some hb hm]

theorem exec_paint_of_ready {pos : BitVec 16} {v : Bool} (h0 : s.faultCause = 0#3) (hr : s.initState = .ready)
    (hb : s.bc = some b) (hm : s.canvas = some m) :
    exec (.paint pos v) s = .next (accept .none (setCanvas (m.paint b.toNat pos.toNat v) s)) := by
  show execPaint pos v s = _
  rw [execPaint, whenReady_ready h0 hr, withCanvas_some hb hm]

theorem exec_fill_of_ready {bar peak : BitVec 16} (h0 : s.faultCause = 0#3) (hr : s.initState = .ready)
    (hb : s.bc = some b) (hm : s.canvas = some m) (h1 : 1 ≤ b.toNat) (ha : adj1InRange b.toNat bar.toNat = true) :
    exec (.fill bar peak) s =
      .next (accept .none
        (transferFrame .flush (((m.drawBar b.toNat (adj1 bar.toNat)).drawPeak b.toNat peak.toNat).frameBytes b.toNat)
          (setCanvas ((m.drawBar b.toNat (adj1 bar.toNat)).drawPeak b.toNat peak.toNat) s))) := by
  show execFill bar peak s = _
  rw [execFill, whenReady_ready h0 hr, withCanvas_some hb hm, if_pos ha, withinCanvas, if_pos (adj1_div_lt h1 ha)]

theorem exec_flush_of_ready (h0 : s.faultCause = 0#3) (hr : s.initState = .ready) (hb : s.bc = some b)
    (hm : s.canvas = some m) :
    exec .flush s = .next (accept .none (transferFrame .flush (m.frameBytes b.toNat) s)) := by
  show execFlush s = _
  rw [execFlush, whenReady_ready h0 hr, withCanvas_some hb hm]

theorem exec_sendraw_of_ready {v : BitVec 32} (h0 : s.faultCause = 0#3) (hr : s.initState = .ready) :
    exec (.sendraw v) s = .next (accept .none (transferFrame .sendraw (rawBytes v) s)) := by
  show execSendraw v s = _
  rw [execSendraw, whenReady_ready h0 hr]

/-- INIT of a legal count in UNINIT, where the draw does not fail. -/
theorem initUnder_of_legal {mayFail : Bool} {draw : Nat → Config.AllocOutcome} {boards pin : BitVec 8}
    (h0 : s.faultCause = 0#3) (hu : s.initState = .uninit) (h1 : 1 ≤ boards.toNat) (h8 : boards.toNat ≤ 8)
    (hd : ¬(mayFail = true ∧ draw s.ci = .failed)) :
    initUnder mayFail draw boards pin s = .next (accept .ok (configure boards pin s)) := by
  rw [initUnder, whenUninit_uninit h0 hu, if_neg (by simp only [Config.minBoards, Config.maxBoards]; omega), if_neg hd]

/-- INIT of a count outside 1 to 8 in UNINIT. -/
theorem initUnder_of_bad {mayFail : Bool} {draw : Nat → Config.AllocOutcome} {boards pin : BitVec 8}
    (h0 : s.faultCause = 0#3) (hu : s.initState = .uninit) (hb : boards.toNat = 0 ∨ 8 < boards.toNat) :
    initUnder mayFail draw boards pin s = .next (accept .fail s) := by
  rw [initUnder, whenUninit_uninit h0 hu, if_pos (by simp only [Config.minBoards, Config.maxBoards]; omega)]

/-- What a step does with the word on the port. -/
theorem step_of_presented {w : Word} (h : presented s = some w) :
    step s = match decode w with
      | .illegalOpcode => raiseFault .illegalOpcode w s
      | .reservedBits => raiseFault .reservedBits w s
      | .instr i => exec i s := by
  cases hd : decode w <;> simp [step, h, hd]

/-- A run takes its first step. -/
theorem run_succ_of_next {k : Nat} (h : step s = .next t) : core.run (k + 1) s = core.run k t := by
  have h' : core.step s = .next t := h
  simp [Host.Core.run, h']

end Sys2Proof.Machine
end

