-- ==== Sys2Proof/Laws/Safety.lean ====
section
/-!
SUPPORT. What the invariant says of the frames sent, and what a frame then leaves to be observed.
-/

namespace Sys2Proof.Machine

variable {s t : State} {b : BitVec 4}

/-- Every frame of a trace of the invariant has its source. -/
theorem State.TraceInv.frameSources_length (h : s.TraceInv) : s.frameSources.length = s.frames.length := by
  rw [State.TraceInv] at h
  split at h
  · simp [h.1, h.2, State.frames, framesFrom]
  · obtain ⟨b, pin, fs, -, -, ho, hs, -⟩ := h
    have : s.frames = fs.map (fun f => f.2) := by
      rw [State.frames, ho, framesFrom, ← framesFrom_flatMap (fs.map _), List.flatMap_map]
    simp [this, hs]

/-- Under the invariant the chain of a configured block is between frames. -/
theorem State.TraceInv.chain_idle (h : s.TraceInv) (hr : s.initState = .ready) (hb : s.bc = some b) :
    ∃ c, s.chain = some c ∧ Chain.Idle b.toNat c := by
  rw [State.TraceInv, hr] at h
  obtain ⟨b', pin, fs, -, -, ho, -, -⟩ := h
  refine ⟨_, by rw [State.chain, hb]; rfl, ?_⟩
  have := Chain.idle_trace b.toNat pin (fs.map (fun f => f.2))
  rwa [List.flatMap_map, ← ho] at this

/-- A frame that fills the chain is what the chain holds and latches. -/
theorem chain_of_frame {bs : List Byte} (h : s.TraceInv) (hr : s.initState = .ready) (hb : s.bc = some b)
    (htb : t.bc = s.bc) (hto : t.out = s.out ++ frameEvents bs) (hl : bs.length = 4 * b.toNat) :
    t.chain = some ⟨none, bs.reverse.map some, bs.reverse.map some⟩ := by
  obtain ⟨c, hc, hi⟩ := h.chain_idle hr hb
  rw [State.chain, hb] at hc
  rw [State.chain, htb, hb, hto, ← Chain.foldl_frame hi hl, ← Option.some.inj hc]
  simp

/-- After a frame that does not fill the chain nothing is settled. -/
theorem chain_of_short_frame {bs : List Byte} (h : s.TraceInv) (hr : s.initState = .ready) (hb : s.bc = some b)
    (htb : t.bc = s.bc) (hto : t.out = s.out ++ frameEvents bs) (hl : bs.length ≠ 4 * b.toNat) :
    t.chain = some (Chain.unsettled b.toNat) := by
  obtain ⟨c, hc, hi⟩ := h.chain_idle hr hb
  rw [State.chain, hb] at hc
  rw [State.chain, htb, hb, hto, ← Chain.foldl_short_frame hi hl, ← Option.some.inj hc]
  simp

/-- What a chain of settled latches shows under a placement that meets the constraint (43_serializer.md R185). -/
theorem cell_of_latched {order : Config.BitOrder} {place : Placement} (h : place.Fits order) {ch : Chain}
    {bs : List Byte} (hl : ch.latch = bs.map some) {k c : Nat} (hc : c < 30) :
    ch.cell order place k c = (bs[(32 * k + c) / 8]?).map (fun x => x.getLsbD ((32 * k + c) % 8)) := by
  have hn : sentBit order (c % 8) < 8 := by
    cases order <;> (simp only [sentBit]; omega)
  have hs : sentBit order (sentBit order (c % 8)) = c % 8 := by
    cases order <;> simp only [sentBit]
    omega
  simp only [Chain.cell, Placement.landing_of_fits h hc, hl]
  rw [show 4 * k + (8 * (c / 8) + sentBit order (c % 8)) / 8 = (32 * k + c) / 8 by omega,
    show (8 * (c / 8) + sentBit order (c % 8)) % 8 = sentBit order (c % 8) by omega, List.getElem?_map]
  cases bs[(32 * k + c) / 8]? with
  | none => rfl
  | some x => simp [serialBits_getElem? order x hn, hs, show (32 * k + c) % 8 = c % 8 by omega]

end Sys2Proof.Machine
end

