-- ==== Sys2Proof/Tests/Slice0.lean ====
section
/-!
SUPPORT. Tests of one step each, with results from the spec's own vectors (spec/95_test_vectors.md and
30_encoding.md R87), and a witness for the hypotheses of each statement.
-/

namespace Sys2Proof.Tests

open Sys2Proof Sys2Proof.Machine

/-! ### States to test on -/

/-- After power-on, with one word presented. -/
def power (w : Word) : State := { State.reset with program := [w] }

/-- After `init n, 5`, with one word presented. -/
def ready (n : BitVec 8) (w : Word) : State :=
  accept .ok (configure n 5#8 { State.reset with program := [encode (.init n 5#8), w] })

/-- The same with a canvas in place. -/
def readyWith (n : BitVec 8) (m : Memory) : State := setCanvas m (ready n 0x0500000000#40)

/-- After `clear` at power-on: NOT_INITIALIZED is recorded (vector X-1). -/
def faulted : State := recordFault .notInitialized 0x0200000000#40 (power 0x0200000000#40)

/-- The state an outcome gives, if it gives one. -/
def after : Host.Outcome State Fault Refusal → Option State
  | .next t => some t
  | .fault _ => none
  | .refused _ => none

/-- The canvas after a command. -/
def canvasAfter (i : Instr) (s : State) : Option (List Byte) := (after (exec i s)).bind State.canvasBytes

/-- The trace after a command. -/
def outAfter (i : Instr) (s : State) : Option (List Event) := (after (exec i s)).map State.out

/-- The fault register after a step. -/
def faultAfter (s : State) : Option (BitVec 3 × Word) := (after (step s)).map (fun t => (t.faultCause, t.faultWord))

/-! ### Well-formedness: an ill-formed term for each check -/

theorem test_wf_boards : Call.wellFormed (.init 256 5) = false := by decide
theorem test_wf_pin : Call.wellFormed (.init 2 256) = false := by decide
theorem test_wf_pos : Call.wellFormed (.paint 65536 1) = false := by decide
theorem test_wf_v : Call.wellFormed (.paint 0 2) = false := by decide
theorem test_wf_bar : Call.wellFormed (.fill 65536 0) = false := by decide
theorem test_wf_peak : Call.wellFormed (.fill 0 65536) = false := by decide
theorem test_wf_value : Call.wellFormed (.sendraw 4294967296) = false := by decide
theorem test_wf_refused : Call.toInstr (.paint 65536 1) = none := by decide
theorem test_wf_ok : Instr.wellFormed (.paint 65535#16 true) = true := by decide

/-! ### Decoding: words written out bit by bit from R73 to R78 -/

theorem test_decode_init :
    decode 0b0000000100000000000000000000010100000010#40 = .instr (.init 2#8 5#8) := by decide
theorem test_decode_clear : decode 0b0000001000000000000000000000000000000000#40 = .instr .clear := by decide
theorem test_decode_paint_set :
    decode 0b0000001100000000000000010000000000011110#40 = .instr (.paint 30#16 true) := by decide
theorem test_decode_paint_clear :
    decode 0b0000001100000000000000000000000000000010#40 = .instr (.paint 2#16 false) := by decide
theorem test_decode_fill :
    decode 0b0000010000000000001011010000000000011111#40 = .instr (.fill 31#16 45#16) := by decide
theorem test_decode_flush : decode 0b0000010100000000000000000000000000000000#40 = .instr .flush := by decide
theorem test_decode_sendraw :
    decode 0b0000011000010010001101000101011001111000#40 = .instr (.sendraw 0x12345678#32) := by decide
theorem test_decode_reserved : decode 0x0300020000#40 = .reservedBits := by decide
theorem test_decode_illegal : decode 0x0700000000#40 = .illegalOpcode := by decide
theorem test_decode_table_word : decodeTableWord 40 0x030001001E = some (.paint 30#16 true) := by decide

/-- The constants of R9 agree: 32 bits are 4 bytes, and 30 LEDs with 2 padding bits. -/
theorem test_constants : Config.bitsPerBoard = 8 * Config.bytesPerBoard ∧
    Config.bitsPerBoard = Config.ledsPerBoard + Config.padPerBoard := by decide

/-! ### The mapper: tables M1 and M2 -/

theorem test_phys0 : [0, 29, 30, 59, 60, 239, 240].map phys0 = [0, 29, 32, 61, 64, 253, 256] := by decide
theorem test_adj1 : [0, 1, 30, 31, 60, 61, 240, 241].map adj1 = [0, 1, 30, 33, 62, 65, 254, 257] := by decide

/-! ### Commands -/

/-- Vector I-2. -/
theorem test_init_ok :
    (after (step (power 0x0100000501#40))).map State.bc = some (some 1#4) ∧
    (after (step (power 0x0100000501#40))).map State.canvasBytes = some (some [0#8, 0#8, 0#8, 0#8]) ∧
    (after (step (power 0x0100000501#40))).map State.sel = some (.driven .high) ∧
    (after (step (power 0x0100000501#40))).map State.out = some [.selInit 5#8] ∧
    (after (step (power 0x0100000501#40))).map State.responses = some [.ok] := by decide

/-- Vector I-4. -/
theorem test_init_bad_count :
    (after (step (power 0x0100000509#40))).map State.initState = some .uninit ∧
    (after (step (power 0x0100000509#40))).map State.canvas = some none ∧
    (after (step (power 0x0100000509#40))).map State.sel = some .undriven ∧
    (after (step (power 0x0100000509#40))).map State.out = some [] ∧
    (after (step (power 0x0100000509#40))).map State.responses = some [.fail] := by decide

/-- Vector C-2. -/
theorem test_clear :
    canvasAfter .clear (readyWith 2#8 [(0, 0xFF#8), (1, 0xFF#8), (2, 0xFF#8), (3, 0xFF#8), (4, 1#8)]) =
      some (List.replicate 8 0#8) := by decide

/-- Vector P-5. -/
theorem test_paint_second_board :
    canvasAfter (.paint 30#16 true) (ready 2#8 0#40) = some [0#8, 0#8, 0#8, 0#8, 1#8, 0#8, 0#8, 0#8] := by decide

/-- Vector P-12: the padding bits survive. -/
theorem test_paint_keeps_padding :
    canvasAfter (.paint 29#16 false) (readyWith 2#8 [(0, 0xFF#8), (1, 0xFF#8), (2, 0xFF#8), (3, 0xFF#8), (4, 1#8)]) =
      some [0xFF#8, 0xFF#8, 0xFF#8, 0xDF#8, 1#8, 0#8, 0#8, 0#8] := by decide

/-- The `fill` of program 2. -/
theorem test_fill_peak :
    canvasAfter (.fill 31#16 45#16) (ready 2#8 0#40) =
      some [0xFF#8, 0xFF#8, 0xFF#8, 0xFF#8, 0x01#8, 0x40#8, 0#8, 0#8] := by decide

/-- Vector F-13: the frame, with a peak out of range. -/
theorem test_fill_frame :
    outAfter (.fill 10#16 31#16) (ready 1#8 0#40) =
      some [.selInit 5#8, .selDrive .low, .tx 0x00#8, .tx 0x00#8, .tx 0x03#8, .tx 0xFF#8, .selDrive .high] := by decide

/-- Vector FL-1. -/
theorem test_flush :
    outAfter .flush (readyWith 1#8 [(0, 0x01#8), (3, 0x20#8)]) =
      some [.selInit 5#8, .selDrive .low, .tx 0x20#8, .tx 0x00#8, .tx 0x00#8, .tx 0x01#8, .selDrive .high] := by decide

/-- Vector SR-1. -/
theorem test_sendraw :
    outAfter (.sendraw 0x12345678#32) (ready 1#8 0#40) =
      some [.selInit 5#8, .selDrive .low, .tx 0x12#8, .tx 0x34#8, .tx 0x56#8, .tx 0x78#8, .selDrive .high] := by decide

/-! ### The flushed canvas and the chain -/

/-- The state after a FLUSH of a canvas of one board. -/
def flushedWith (m : Memory) : State := (after (exec .flush (readyWith 1#8 m))).getD State.reset

/-- The placement that meets R185 where the most significant bit is sent first: serial bit 0 lands in the highest cell. -/
def placeMsbFirst : Placement := fun j n => 8 * j + (7 - n)

/-- The placement that meets R185 where the least significant bit is sent first. -/
def placeLsbFirst : Placement := fun j n => 8 * j + n

/-- R30: after FLUSH, SENDRAW of another value sends no FLUSH frame, so the canvas is still flushed; a PAINT is not. -/
theorem test_flushed :
    (after (exec (.sendraw 0xFFFFFFFF#32) (flushedWith [(0, 1#8)]))).map State.flushed = some true ∧
    (after (exec (.paint 5#16 true) (flushedWith [(0, 1#8)]))).map State.flushed = some false := by decide

/-- R185 under either bit order: with canvas `[1, 0, 0, 0x20]` the LEDs 0 and 29 are lit and the LED 7 is dark. -/
theorem test_leds_shown :
    [0, 7, 29].map ((flushedWith [(0, 1#8), (3, 0x20#8)]).ledShown .msbFirst placeMsbFirst) =
      [some true, some false, some true] ∧
    [0, 7, 29].map ((flushedWith [(0, 1#8), (3, 0x20#8)]).ledShown .lsbFirst placeLsbFirst) =
      [some true, some false, some true] := by decide

/-- A placement that does not meet the constraint shows other LEDs: the bits of each byte are swapped end for end. -/
theorem test_leds_misplaced : ¬Placement.Fits .msbFirst placeLsbFirst ∧
    [0, 7].map ((flushedWith [(0, 1#8), (3, 0x20#8)]).ledShown .msbFirst placeLsbFirst) =
      [some false, some true] := by decide

/-- 93_implementation_defined.md item 7: with two boards, nothing is settled after SENDRAW. -/
theorem test_display_unsettled :
    (after (exec (.sendraw 1#32) (ready 2#8 0#40))).map State.display = some none := by decide

/-! ### Faults: vectors X-1, X-3, X-4, X-5 and I-7 -/

theorem test_fault_not_initialized : faultAfter (power 0x0200000000#40) = some (3#3, 0x0200000000#40) := by decide
theorem test_fault_reserved : faultAfter (ready 1#8 0x0300020000#40) = some (2#3, 0x0300020000#40) := by decide
theorem test_fault_illegal_first : faultAfter (power 0x0700000000#40) = some (1#3, 0x0700000000#40) := by decide
theorem test_fault_reserved_first : faultAfter (power 0x0100010001#40) = some (2#3, 0x0100010001#40) := by decide
theorem test_fault_reinit : faultAfter (ready 2#8 0x0100000502#40) = some (4#3, 0x0100000502#40) := by decide
theorem test_stuck : after (step faulted) = none := by decide

/-! ### The port and the assembler -/

theorem test_fetch_word : presented (State.reset.withFetchWord 40 0x0100000502) = some 0x0100000502#40 := by decide
theorem test_waits : after (step State.reset) = some State.reset := by decide

theorem test_parse_line :
    parseLine ['p', 'a', 'i', 'n', 't', ' ', '0', 'x', '1', 'E', ',', ' ', 't', 'r', 'u', 'e', ' ', ';', 'x'] =
      .command (.paint 30 1) := by decide

/-- R87: `fill 0` is 0x0400000000; R85 refuses `init 256`. -/
theorem test_assemble :
    assembleLines 7#8 [['f', 'i', 'l', 'l', ' ', '0'], [';'], ['i', 'n', 'i', 't']] =
      some [0x0400000000#40, 0x0100000701#40] ∧
    assembleLines 7#8 [['i', 'n', 'i', 't', ' ', '2', '5', '6']] = none := by decide

/-! ### Witnesses for the hypotheses of the statements

`ready_inv` and `power_inv` meet `Inv` at every board count and with every word presented, so each clause of a
statement about the presented word has a witness. -/

theorem power_inv (w : Word) : (power w).Inv := by
  refine ⟨⟨rfl, rfl, rfl⟩, ⟨rfl, rfl⟩, ⟨rfl, rfl⟩, ?_, ?_⟩
  · simp [State.FaultInv, power, State.reset, FaultCause.code]
  · simp [State.PortInv, power, State.reset]

theorem ready_inv {n : BitVec 8} (h1 : 1 ≤ n.toNat) (h8 : n.toNat ≤ 8) (w : Word) : (ready n w).Inv := by
  have hn : (n.setWidth 4).toNat = n.toNat := by rw [BitVec.toNat_setWidth]; omega
  refine ⟨?_, ⟨rfl, rfl⟩, ?_, ?_, ?_⟩
  · exact ⟨n.setWidth 4, 5#8, [], rfl, rfl, by simp [ready], by omega, by omega, rfl, by simp⟩
  · exact ⟨n.setWidth 4, 5#8, [], rfl, rfl, by simp [ready, State.reset], rfl, by simp⟩
  · simp [State.FaultInv, ready, State.reset, FaultCause.code]
  · simp [State.PortInv, ready, State.reset]

theorem faulted_inv : faulted.Inv := by
  refine ⟨⟨rfl, rfl, rfl⟩, ⟨rfl, rfl⟩, ⟨rfl, rfl⟩, ?_, ?_⟩
  · simp [State.FaultInv, faulted, power, State.reset, FaultCause.code]
  · simp [State.PortInv, faulted, power, State.reset]

/-- A READY state of one board with nothing recorded: the hypotheses of the results of CLEAR, PAINT, FILL, FLUSH and
SENDRAW, of their idempotence, and of the statements on the display. -/
theorem witness_ready : (ready 1#8 0#40).Inv ∧ (ready 1#8 0#40).initState = .ready ∧
    (ready 1#8 0#40).faultCause = 0#3 ∧ (ready 1#8 0#40).bc = some 1#4 :=
  ⟨ready_inv (by decide) (by decide) _, rfl, rfl, rfl⟩

/-- The same with eight boards. -/
theorem witness_ready_eight : (ready 8#8 0#40).Inv ∧ (ready 8#8 0#40).initState = .ready ∧
    (ready 8#8 0#40).faultCause = 0#3 ∧ (ready 8#8 0#40).bc = some 8#4 :=
  ⟨ready_inv (by decide) (by decide) _, rfl, rfl, rfl⟩

/-- StepKeepsInvariant, SelectLineHighBetweenCommands, CanvasLengthInvariant, OutputGrowsByWholeFrames (a frame),
ConfigurationIsFixed: a step from READY. -/
theorem witness_step_ready : (ready 1#8 0x0500000000#40).Inv ∧ (ready 1#8 0x0500000000#40).initState = .ready ∧
    ∃ t, step (ready 1#8 0x0500000000#40) = .next t ∧ t.faultCause = 0#3 ∧ t.out ≠ (ready 1#8 0x0500000000#40).out :=
  ⟨ready_inv (by decide) (by decide) _, rfl, _, rfl, rfl, by decide⟩

/-- OnlyInitEntersReady, OutputGrowsByWholeFrames (a SelInit), CanvasLengthInvariant in UNINIT: a step from UNINIT. -/
theorem witness_step_init : (power 0x0100000508#40).Inv ∧ (power 0x0100000508#40).initState = .uninit ∧
    ∃ t, step (power 0x0100000508#40) = .next t ∧ t.initState = .ready :=
  ⟨power_inv _, rfl, _, rfl, rfl⟩

/-- EveryRunEnds and OnlyARecordedFaultStopsTheBlock: unfaulted and faulted states of the invariant. -/
theorem witness_inv : State.Inv (power 0x0200000000#40) ∧ State.Inv faulted ∧ faulted.faultCause ≠ 0#3 :=
  ⟨power_inv _, faulted_inv, by decide⟩

/-- StepRunsDecodedCommand, its three clauses. -/
theorem witness_step_runs :
    (presented (ready 1#8 0x0500000000#40) = some 0x0500000000#40 ∧ decode 0x0500000000#40 = .instr .flush ∧
      Instr.wellFormed .flush = true) ∧
    decodeTableWord 40 0x0500000000 = some .flush ∧
    (presented State.reset = none ∧ State.reset.faultCause = 0#3) := by decide

/-- AcceptedCommandsAdvanceTheIndex, BytesPerCommand, OutputsAreNeverRead: an accepted command; and one that raises a
fault. -/
theorem witness_exec :
    (∃ t, exec .flush (ready 1#8 0#40) = .next t ∧ t.faultCause = 0#3) ∧
    ∃ t, exec .flush (power 0#40) = .next t ∧ t.faultCause ≠ 0#3 :=
  ⟨⟨_, rfl, rfl⟩, ⟨_, rfl, by decide⟩⟩

/-- CheckOrder, its first two outcomes: a stuck block; the first opcode above the legal ones. -/
theorem witness_check_order_illegal :
    (faulted.Inv ∧ presented faulted = some 0x0200000000#40 ∧ faulted.faultCause ≠ 0#3) ∧
    ((power 0x0700000000#40).Inv ∧ presented (power 0x0700000000#40) = some 0x0700000000#40 ∧
      (power 0x0700000000#40).faultCause = 0#3 ∧ (0x0700000000#40).toNat / 2 ^ 32 = 7) :=
  ⟨⟨faulted_inv, rfl, by decide⟩, power_inv _, rfl, rfl, by decide⟩

/-- CheckOrder, its next three outcomes: the lowest reserved bit of PAINT; INIT in READY; SENDRAW in UNINIT. -/
theorem witness_check_order_faults :
    ((power 0x0300020000#40).Inv ∧ presented (power 0x0300020000#40) = some 0x0300020000#40 ∧
      (power 0x0300020000#40).faultCause = 0#3 ∧ (0x0300020000#40).toNat / 2 ^ 17 % 2 ^ 15 ≠ 0) ∧
    ((ready 1#8 0x0100000501#40).Inv ∧ presented (ready 1#8 0x0100000501#40) = some 0x0100000501#40 ∧
      (ready 1#8 0x0100000501#40).faultCause = 0#3 ∧ (ready 1#8 0x0100000501#40).initState = .ready) ∧
    ((power 0x06FFFFFFFF#40).Inv ∧ presented (power 0x06FFFFFFFF#40) = some 0x06FFFFFFFF#40 ∧
      (power 0x06FFFFFFFF#40).faultCause = 0#3 ∧ (power 0x06FFFFFFFF#40).initState = .uninit) :=
  ⟨⟨power_inv _, rfl, rfl, by decide⟩, ⟨ready_inv (by decide) (by decide) _, rfl, rfl, rfl⟩, power_inv _, rfl, rfl, rfl⟩

/-- CheckOrder, its last outcome: SENDRAW, the highest legal opcode, in READY. -/
theorem witness_check_order_runs :
    (ready 1#8 0x06FFFFFFFF#40).Inv ∧ presented (ready 1#8 0x06FFFFFFFF#40) = some 0x06FFFFFFFF#40 ∧
    (ready 1#8 0x06FFFFFFFF#40).faultCause = 0#3 ∧ (0x06FFFFFFFF#40).toNat / 2 ^ 32 = 6 ∧
    (ready 1#8 0x06FFFFFFFF#40).initState = .ready :=
  ⟨ready_inv (by decide) (by decide) _, rfl, rfl, by decide, rfl⟩

/-- IllegalOpcodes at both ends of each range; ReservedBits: a word with a reserved bit, and words of FILL and SENDRAW
with every operand bit set. -/
theorem witness_encodings_refused :
    (presented (power 0x00FFFFFFFF#40) = some 0x00FFFFFFFF#40 ∧ (power 0x00FFFFFFFF#40).faultCause = 0#3 ∧
      (0x00FFFFFFFF#40).toNat / 2 ^ 32 = 0) ∧
    (presented (power 0xFF00000000#40) = some 0xFF00000000#40 ∧ (power 0xFF00000000#40).faultCause = 0#3 ∧
      7 ≤ (0xFF00000000#40).toNat / 2 ^ 32) ∧
    (presented (power 0x0280000000#40) = some 0x0280000000#40 ∧ (power 0x0280000000#40).faultCause = 0#3 ∧
      decode 0x0280000000#40 = .reservedBits) ∧
    (0x04FFFFFFFF#40).toNat / 2 ^ 32 = 4 ∧ (0x06FFFFFFFF#40).toNat / 2 ^ 32 = 6 := by decide

/-- FaultsArePrecise and FaultedBlockIsStuck. -/
theorem witness_fault : presented (power 0x0200000000#40) = some 0x0200000000#40 ∧
    step (power 0x0200000000#40) = .next faulted ∧ faulted.faultCause ≠ 0#3 :=
  ⟨rfl, rfl, by decide⟩

/-- UninitializedCommandsFault, InitSucceeds (with counts 1 and 8), InitOfBadCountFails (with 0 and 9),
AllocationFailure and WorkedEncodings: UNINIT with nothing recorded. -/
theorem witness_uninit : (power 0#40).Inv ∧ (power 0#40).faultCause = 0#3 ∧ (power 0#40).initState = .uninit ∧
    (∀ boards pin, Instr.sendraw 0#32 ≠ .init boards pin) ∧ 1 ≤ (1#8).toNat ∧ (8#8).toNat ≤ 8 ∧ (0#8).toNat = 0 ∧
    8 < (9#8).toNat :=
  ⟨power_inv _, rfl, rfl, by simp, by decide, by decide, rfl, by decide⟩

/-- AllocationFailure: a draw of each kind. -/
theorem witness_draw : ∃ d d' : Nat → Config.AllocOutcome, d (power 0#40).ci = .failed ∧ d' (power 0#40).ci = .obtained :=
  ⟨fun _ => .failed, fun _ => .obtained, rfl, rfl⟩

/-- InitMayBeRetried: an INIT that responded FAIL, and one that responded OK. -/
theorem witness_retry :
    (∃ t, exec (.init 9#8 5#8) (power 0#40) = .next t ∧ t.responses = (power 0#40).responses ++ [.fail]) ∧
    ∃ t, exec (.init 8#8 5#8) (power 0#40) = .next t ∧ t.responses = (power 0#40).responses ++ [.ok] :=
  ⟨⟨_, rfl, rfl⟩, ⟨_, rfl, rfl⟩⟩

/-- DecodeEncodeRoundTrip, OneWordPerCommand, OpcodeTableMatchesDecoder, AssembledLineDecodes. -/
theorem witness_encoding :
    Instr.wellFormed (.sendraw 0xFFFFFFFF#32) = true ∧ decode 0x06FFFFFFFF#40 = .instr (.sendraw 0xFFFFFFFF#32) ∧
    Row.matches ⟨"CLEAR", 0x0200000000#40, 0xFFFFFFFFFF#40⟩ 0x0200000000#40 = true ∧
    AsmLine.assemble 7#8 (.paint 65535 1) = some 0x030001FFFF#40 := by decide

/-- PaintSetsOneBit in range and out of range, PaintRoundTrip at the last LED of one board; ZeroBasedMappingFacts. -/
theorem witness_paint_range : phys0 (29#16).toNat < 32 * (1#4).toNat ∧ (29#16).toNat < 30 * (1#4).toNat ∧
    ¬phys0 (30#16).toNat < 32 * (1#4).toNat ∧ 28 % 30 ≠ 29 := by decide

/-- The statements on an in-range FILL at its largest bar, with a peak inside and with two boards; on an out-of-range
FILL at the least such bar; MapperFormulas and OneBasedMappingFacts. -/
theorem witness_fill_range : adj1 (30#16).toNat ≤ 32 * (1#4).toNat ∧ (3#16).toNat ≤ (30#16).toNat ∧
    adj1 (31#16).toNat ≤ 32 * (2#4).toNat ∧ 32 * (1#4).toNat < adj1 (31#16).toNat ∧ (1 : Nat) ≤ 1 := by decide

/-- OnlyABarLightsPadding: a FILL that passes board 0 lights its cell 30. -/
theorem witness_padding : ∃ t, exec (.fill 31#16 0#16) (ready 2#8 0#40) = .next t ∧ 30 ≤ 30 % 32 ∧
    t.canvasBit 30 = some true :=
  ⟨_, rfl, by decide, by decide⟩

/-- FillDiscardsTheCanvas: two canvases of one board. -/
theorem witness_two_canvases : (readyWith 1#8 [(0, 1#8)]).Inv ∧ (readyWith 1#8 []).Inv ∧
    (readyWith 1#8 [(0, 1#8)]).initState = .ready ∧ (readyWith 1#8 []).initState = .ready ∧
    (readyWith 1#8 [(0, 1#8)]).bc = some 1#4 ∧ (readyWith 1#8 []).bc = some 1#4 ∧
    (readyWith 1#8 [(0, 1#8)]).out = (readyWith 1#8 []).out ∧ adj1 (2#16).toNat ≤ 32 * (1#4).toNat ∧
    (∃ t, exec (.fill 2#16 0#16) (readyWith 1#8 [(0, 1#8)]) = .next t) ∧
    ∃ t, exec (.fill 2#16 0#16) (readyWith 1#8 []) = .next t := by
  have h := ready_inv (n := 1#8) (by decide) (by decide) 0x0500000000#40
  refine ⟨⟨?_, h.2⟩, ⟨?_, h.2⟩, rfl, rfl, rfl, rfl, rfl, by decide, ⟨_, rfl⟩, ⟨_, rfl⟩⟩
  · exact ⟨1#4, 5#8, _, rfl, rfl, rfl, by decide, by decide, by decide, by simp⟩
  · exact ⟨1#4, 5#8, _, rfl, rfl, rfl, by decide, by decide, rfl, by simp⟩

/-- CanvasCommandsAreIdempotent names three commands; CanvasIsALittleEndianNumber and SendrawMatchesFlushOnOneBoard have a
canvas and the word it is read as. -/
theorem witness_number : (readyWith 1#8 [(0, 1#8)]).bc = some 1#4 ∧
    (readyWith 1#8 [(0, 1#8)]).canvasBytes = some [1#8, 0#8, 0#8, 0#8] ∧
    (1#32).toNat = (0#8).toNat * 2 ^ 24 + (0#8).toNat * 2 ^ 16 + (0#8).toNat * 2 ^ 8 + (1#8).toNat := by decide

/-- DisplayChangesOnlyByFrames: a PAINT, a FLUSH that raises a fault, a FILL at the least bar out of range, and an INIT
from a state of the invariant. -/
theorem witness_display :
    (∃ t, exec (.paint 0#16 true) (ready 1#8 0#40) = .next t ∧ t.frames = (ready 1#8 0#40).frames) ∧
    (∃ t, exec .flush (power 0#40) = .next t ∧ t.faultCause ≠ 0#3) ∧
    (∃ t, exec (.fill 31#16 0#16) (ready 1#8 0#40) = .next t ∧ 32 * (1#4).toNat < adj1 (31#16).toNat) ∧
    ∃ t, exec (.init 1#8 5#8) (power 0#40) = .next t ∧ t.faultCause = 0#3 :=
  ⟨⟨_, rfl, rfl⟩, ⟨_, rfl, by decide⟩, ⟨_, rfl, by decide⟩, ⟨_, rfl, rfl⟩⟩

/-- FrameShowsTheCanvas and PlacementIsSpecifiedByTheResult: each bit order has a placement that meets the constraint,
which says something of the last LED cell (29) and of the first padding cell (30); and FLUSH answers a next state. -/
theorem witness_placement : Placement.Fits .msbFirst placeMsbFirst ∧ Placement.Fits .lsbFirst placeLsbFirst ∧
    8 * 3 + sentBit .lsbFirst 5 = 29 ∧ 8 * 3 + sentBit .lsbFirst 6 = 30 ∧
    ∃ t, exec .flush (ready 1#8 0#40) = .next t :=
  ⟨by decide, by decide, rfl, rfl, _, rfl⟩

/-- FlushedFollowsTheLastFlushFrame: each kind of accepted command, FILL at the last bar in range and the first out of
range. -/
theorem witness_flushed :
    (∃ t, exec (.init 1#8 5#8) (power 0#40) = .next t ∧ t.faultCause = 0#3) ∧
    (∃ t, exec .clear (ready 1#8 0#40) = .next t ∧ t.faultCause = 0#3) ∧
    (∃ t, exec (.sendraw 1#32) (ready 1#8 0#40) = .next t ∧ t.faultCause = 0#3) ∧
    (∃ t, exec (.fill 30#16 0#16) (ready 1#8 0#40) = .next t ∧ t.faultCause = 0#3 ∧
      adj1 (30#16).toNat ≤ 32 * (1#4).toNat) ∧
    ∃ t, exec (.fill 31#16 0#16) (ready 1#8 0#40) = .next t ∧ t.faultCause = 0#3 ∧
      ¬adj1 (31#16).toNat ≤ 32 * (1#4).toNat :=
  ⟨⟨_, rfl, rfl⟩, ⟨_, rfl, rfl⟩, ⟨_, rfl, rfl⟩, ⟨_, rfl, rfl, by decide⟩, _, rfl, rfl, by decide⟩

/-- FlushAfterSendrawRestoresTheDisplay with more than one board. -/
theorem witness_two_boards : (ready 2#8 0#40).Inv ∧ (ready 2#8 0#40).bc = some 2#4 ∧ 1 < (2#4).toNat :=
  ⟨ready_inv (by decide) (by decide) _, rfl, by decide⟩

/-- InstancesAreIndependent: two instances, one of which takes a step. -/
theorem witness_instances : ∃ ts, stepInstance [power 0x0100000501#40, State.reset] 0 = .next ts ∧
    ts[1]? = some State.reset :=
  ⟨_, rfl, rfl⟩

end Sys2Proof.Tests
end

/-!
The statements on the machine's state (10_state.md): what every step keeps, how OUT and the command index move, what no
command reads, and the flushed canvas. Each part of the invariant is proved over `Effect`, the ways a command can end,
and carried to a step once, by `step_preserves`.
-/

namespace Sys2Proof.Machine

section StateInvariants

variable {s t : State} {i : Instr} {b : BitVec 4} {m d : Memory} {src : FrameSource} {bs : List Byte}

/-! ### From commands to steps -/

theorem ci_lt_of_presented {w : Word} (h : presented s = some w) : s.ci < s.program.length :=
  (List.getElem?_eq_some_iff.mp h).1

/-- What holds of a state, of that state with a decode fault recorded, and of what each effect leaves, holds after a
step. -/
theorem step_preserves {P : State → Prop}
    (hfault : ∀ c w, c = .illegalOpcode ∨ c = .reservedBits → P (recordFault c w s))
    (heffect : ∀ i, s.faultCause = 0#3 → s.ci < s.program.length → Effect i s t → P t)
    (hs : P s) (h : step s = .next t) : P t := by
  obtain ⟨h0, ⟨-, rfl⟩ | ⟨w, hw, ⟨-, rfl⟩ | ⟨-, rfl⟩ | ⟨i, -, hi⟩⟩⟩ := step_next h
  · exact hs
  · exact hfault _ _ (.inl rfl)
  · exact hfault _ _ (.inr rfl)
  · exact heffect i h0 (ci_lt_of_presented hw) (exec_effect hi).2

/-! ### The canvas and its registers (10_state.md R36) -/

theorem State.CanvasInv.of_ready (h : s.CanvasInv) (hr : s.initState = .ready) :
    ∃ b pin m, s.bc = some b ∧ s.selPin = some pin ∧ s.canvas = some m ∧ 1 ≤ b.toNat ∧ b.toNat ≤ 8 ∧
      m.wf = true ∧ m.Below (4 * b.toNat) := by
  rwa [State.CanvasInv, hr] at h

theorem State.CanvasInv.of_uninit (h : s.CanvasInv) (hu : s.initState = .uninit) :
    s.bc = none ∧ s.selPin = none ∧ s.canvas = none := by
  rwa [State.CanvasInv, hu] at h

theorem State.CanvasInv.of_canvas (h : s.CanvasInv) (hr : s.initState = .ready) (hb : s.bc = some b)
    (hm : s.canvas = some m) :
    m.wf = true ∧ m.Below (4 * b.toNat) := by
  obtain ⟨b', pin, m', hb', -, hm', -, -, hw, hl⟩ := h.of_ready hr
  obtain rfl : b = b' := by simpa [hb] using hb'
  obtain rfl : m = m' := by simpa [hm] using hm'
  exact ⟨hw, hl⟩

theorem State.CanvasInv.setCanvas (h : s.CanvasInv) (hr : s.initState = .ready) (hb : s.bc = some b)
    (hw : d.wf = true) (hl : d.Below (4 * b.toNat)) : (setCanvas d s).CanvasInv := by
  obtain ⟨b', pin, m, hb', hp, -, h1, h8, -, -⟩ := h.of_ready hr
  obtain rfl : b = b' := by simpa [hb] using hb'
  rw [State.CanvasInv, setCanvas_initState, hr]
  exact ⟨b, pin, d, hb, hp, rfl, h1, h8, hw, hl⟩

theorem State.CanvasInv.transferFrame (h : s.CanvasInv) : (transferFrame src bs s).CanvasInv := by
  rw [transferFrame_eq]; exact h

theorem setWidth_toNat_of_le_eight {boards : BitVec 8} (h8 : boards.toNat ≤ 8) :
    (boards.setWidth 4).toNat = boards.toNat := by
  rw [BitVec.toNat_setWidth]; omega

theorem canvasInv_configure (s : State) {boards pin : BitVec 8} (h1 : 1 ≤ boards.toNat) (h8 : boards.toNat ≤ 8) :
    (configure boards pin s).CanvasInv := by
  have hb := setWidth_toNat_of_le_eight h8
  exact ⟨boards.setWidth 4, pin, [], rfl, rfl, by simp, by omega, by omega, rfl, by simp⟩

theorem Effect.canvasInv (h : Effect i s t) (hs : s.CanvasInv) : t.CanvasInv := by
  cases h with
  | reinit | notInitialized | initFailed | noOp => exact hs
  | initDone boards pin hi hu h1 h8 => exact canvasInv_configure s h1 h8
  | drawn m d b hr hb hm hd =>
    obtain ⟨hw, hl⟩ := hs.of_canvas hr hb hm
    refine hs.setCanvas hr hb ?_ ?_ <;> obtain rfl | ⟨L, v, rfl⟩ := hd
    · exact Memory.wf_writeBelow _ _ hw
    · exact Memory.wf_paint _ _ _ hw
    · exact Memory.below_writeBelow _ hl le_rfl
    · exact Memory.below_paint _ _ _ hl
  | filled m d b a peak hr hb hm ha hd =>
    obtain ⟨hw, hl⟩ := hs.of_canvas hr hb hm
    subst hd
    exact (hs.setCanvas hr hb (Memory.wf_drawPeak _ _ (Memory.wf_drawBar _ _ hw))
      (Memory.below_drawPeak _ _ (Memory.below_drawBar _ _ hl ha))).transferFrame
  | flushed | sent => exact hs.transferFrame

theorem step_keeps_canvasInv (hs : s.CanvasInv) (h : step s = .next t) : t.CanvasInv :=
  step_preserves (fun _ _ _ => hs) (fun _ _ _ he => he.canvasInv hs) hs h

/-! ### The select line (10_state.md R26, 70_reset_and_hazards.md R240) -/

theorem State.SelInv.sel_of_ready (h : s.SelInv) (hr : s.initState = .ready) : s.sel = .driven .high := by
  simpa [hr] using h.2

/-- A frame leaves the line high, whatever it was before. -/
theorem selInv_transferFrame (hr : s.initState = .ready) : (transferFrame src bs s).SelInv := by
  simp [State.SelInv, hr, lineAfter_append, lineAfter_frame]

theorem selInv_configure {boards pin : BitVec 8} : (configure boards pin s).SelInv := by
  simp [State.SelInv, lineAfter_append, lineAfter]

theorem Effect.selInv (h : Effect i s t) (hs : s.SelInv) : t.SelInv := by
  cases h with
  | reinit | notInitialized | initFailed | noOp | drawn => exact hs
  | initDone => exact selInv_configure
  | filled m d b a peak hr => exact selInv_transferFrame (s := setCanvas d s) hr
  | flushed m b hr => exact selInv_transferFrame hr
  | sent value hi hr => exact selInv_transferFrame hr

theorem step_keeps_selInv (hs : s.SelInv) (h : step s = .next t) : t.SelInv :=
  step_preserves (fun _ _ _ => hs) (fun _ _ _ he => he.selInv hs) hs h

/-! ### The shape of the trace (43_serializer.md R174, 40_init.md R104) -/

theorem State.TraceInv.of_uninit (h : s.TraceInv) (hu : s.initState = .uninit) :
    s.out = [] ∧ s.frameSources = [] := by
  rwa [State.TraceInv, hu] at h

/-- A frame of its operation's length is one more whole frame of the trace. -/
theorem State.TraceInv.transferFrame (h : s.TraceInv) (hr : s.initState = .ready)
    (hl : ∀ b, s.bc = some b → bs.length = frameLength b.toNat src) : (transferFrame src bs s).TraceInv := by
  rw [State.TraceInv, hr] at h
  obtain ⟨b, pin, fs, hb, hp, ho, hs, hf⟩ := h
  rw [State.TraceInv, transferFrame_initState, hr]
  refine ⟨b, pin, fs ++ [(src, bs)], by simpa using hb, by simpa using hp, by simp [ho], by simp [hs], ?_⟩
  intro f hmem
  rcases List.mem_append.mp hmem with hmem | hmem
  · exact hf f hmem
  · obtain rfl : f = (src, bs) := by simpa using hmem
    exact hl b hb

theorem State.TraceInv.configure {boards pin : BitVec 8} (h : s.TraceInv) (hu : s.initState = .uninit) :
    (configure boards pin s).TraceInv := by
  obtain ⟨ho, hs⟩ := h.of_uninit hu
  exact ⟨boards.setWidth 4, pin, [], rfl, rfl, by simp [ho], by simp [hs], by simp⟩

/-- A canvas sent as FLUSH sends it makes a frame of FLUSH's length. -/
theorem length_frameBytes_of_bc (hb : s.bc = some b) (b' : BitVec 4) (hb' : s.bc = some b') :
    (d.frameBytes b.toNat).length = frameLength b'.toNat .flush := by
  obtain rfl : b = b' := by simpa [hb] using hb'
  simp [frameLength]

theorem Effect.traceInv (h : Effect i s t) (hs : s.TraceInv) : t.TraceInv := by
  cases h with
  | reinit | notInitialized | initFailed | noOp | drawn => exact hs
  | initDone boards pin hi hu => exact hs.configure hu
  | filled m d b a peak hr hb =>
    exact State.TraceInv.transferFrame (s := setCanvas d s) hs hr (length_frameBytes_of_bc hb)
  | flushed m b hr hb => exact hs.transferFrame hr (length_frameBytes_of_bc hb)
  | sent value hi hr => exact hs.transferFrame hr (fun _ _ => rfl)

/-! ### The fault register (10_state.md R27, R28; 60_exceptions.md R203, R206, R207) -/

theorem FaultCause.code_ne_zero (c : FaultCause) : c.code ≠ 0#3 := by
  cases c <;> decide

/-- A command that raised its fault was not accepted. -/
theorem recordFault_faultCause_ne_zero (c : FaultCause) (w : Word) (s : State) :
    (recordFault c w s).faultCause ≠ 0#3 :=
  c.code_ne_zero

theorem FaultCause.code_le_four (c : FaultCause) : c.code.toNat ≤ 4 := by
  cases c <;> decide

theorem FaultCause.code_inj {c c' : FaultCause} : c.code = c'.code ↔ c = c' := by
  cases c <;> cases c' <;> decide

theorem faultInv_recordFault {c : FaultCause} {w : Word} (hn : c = .notInitialized → s.initState = .uninit)
    (hr : c = .reinit → s.initState = .ready) : (recordFault c w s).FaultInv :=
  ⟨c.code_le_four, fun h => absurd h c.code_ne_zero, fun h => hn (FaultCause.code_inj.mp h),
    fun h => hr (FaultCause.code_inj.mp h)⟩

theorem faultInv_of_clear (h0 : s.faultCause = 0#3) (hw : s.faultWord = 0#40) : s.FaultInv := by
  refine ⟨by simp [h0], fun _ => hw, fun h => ?_, fun h => ?_⟩ <;>
    exact absurd (h.symm.trans h0) (FaultCause.code_ne_zero _)

theorem Effect.faultInv (h : Effect i s t) (h0 : s.faultCause = 0#3) (hs : s.FaultInv) : t.FaultInv := by
  have hw : s.faultWord = 0#40 := hs.2.1 h0
  cases h with
  | reinit hr => exact faultInv_recordFault (by simp) (fun _ => hr)
  | notInitialized hu => exact faultInv_recordFault (fun _ => hu) (by simp)
  | initFailed | initDone | noOp | drawn => exact faultInv_of_clear h0 hw
  | filled | flushed | sent => exact faultInv_of_clear (by simpa using h0) (by simpa using hw)

/-! ### The command port (10_state.md R21, R34) -/

/-- An effect leaves the program, and either moves the command index and the responses by one together or moves
neither. -/
theorem Effect.port (h : Effect i s t) : t.program = s.program ∧
    ((t.ci = s.ci ∧ t.responses = s.responses) ∨ (t.ci = s.ci + 1 ∧ ∃ r, t.responses = s.responses ++ [r])) := by
  cases h with
  | reinit | notInitialized => exact ⟨rfl, .inl ⟨rfl, rfl⟩⟩
  | initFailed | initDone | noOp | drawn => exact ⟨rfl, .inr ⟨rfl, _, rfl⟩⟩
  | filled | flushed | sent => simp

theorem Effect.portInv (h : Effect i s t) (hlt : s.ci < s.program.length) (hs : s.PortInv) : t.PortInv := by
  obtain ⟨hlen, hle⟩ := hs
  obtain ⟨hp, ⟨hc, hr⟩ | ⟨hc, r, hr⟩⟩ := h.port
  · exact ⟨by rw [hr, hc, hlen], by rw [hc, hp]; exact hle⟩
  · exact ⟨by rw [hr, hc, List.length_append, hlen]; rfl, by rw [hc, hp]; exact hlt⟩

/-! ### The invariant -/

theorem Effect.inv (h : Effect i s t) (h0 : s.faultCause = 0#3) (hlt : s.ci < s.program.length) (hs : s.Inv) :
    t.Inv := by
  obtain ⟨hcanvas, hsel, htrace, hfault, hport⟩ := hs
  exact ⟨h.canvasInv hcanvas, h.selInv hsel, h.traceInv htrace, h.faultInv h0 hfault, h.portInv hlt hport⟩

/-- A decode fault keeps the invariant: it says nothing of the state it is raised in. -/
theorem State.Inv.recordFault {c : FaultCause} {w : Word} (hs : s.Inv) (hc : c = .illegalOpcode ∨ c = .reservedBits) :
    (recordFault c w s).Inv := by
  obtain ⟨hcanvas, hsel, htrace, -, hport⟩ := hs
  refine ⟨hcanvas, hsel, htrace, faultInv_recordFault ?_ ?_, hport⟩ <;> obtain rfl | rfl := hc <;> simp

theorem step_keeps_inv (hs : s.Inv) (h : step s = .next t) : t.Inv :=
  step_preserves (fun _ _ hc => hs.recordFault hc) (fun _ h0 hlt he => he.inv h0 hlt hs) hs h

/-! ### What a step appends to OUT (10_state.md R31, 43_serializer.md R174) -/

/-- The ways OUT can grow: not at all, by INIT's event, or by one whole frame, which leaves the line high. -/
def OutGrows (s t : State) : Prop :=
  t.out = s.out ∨ (∃ pin, s.initState = .uninit ∧ t.out = s.out ++ [.selInit pin]) ∨
    ∃ bs, s.initState = .ready ∧ t.out = s.out ++ frameEvents bs ∧ t.sel = .driven .high

theorem Effect.outGrows (h : Effect i s t) : OutGrows s t := by
  cases h with
  | reinit | notInitialized | initFailed | noOp | drawn => exact .inl rfl
  | initDone boards pin hi hu => exact .inr (.inl ⟨pin, hu, rfl⟩)
  | filled m d b a peak hr => exact .inr (.inr ⟨d.frameBytes b.toNat, hr, by simp, by simp⟩)
  | flushed m b hr => exact .inr (.inr ⟨m.frameBytes b.toNat, hr, by simp, by simp⟩)
  | sent value hi hr => exact .inr (.inr ⟨rawBytes value, hr, by simp, by simp⟩)

theorem step_outGrows (h : step s = .next t) : OutGrows s t :=
  step_preserves (fun _ _ _ => .inl rfl) (fun _ _ _ he => he.outGrows) (.inl rfl) h

/-! ### The command index and the responses (10_state.md R21, R34; 60_exceptions.md R202) -/

/-- A command was accepted with one response, of which `P` holds, or raised a fault and moved neither the index nor the
responses; the program is the same. -/
def AdvancesPort (P : Response → Prop) (s t : State) : Prop :=
  t.program = s.program ∧
    ((t.faultCause = 0#3 ∧ t.ci = s.ci + 1 ∧ ∃ r, t.responses = s.responses ++ [r] ∧ P r) ∨
      (t.faultCause ≠ 0#3 ∧ t.ci = s.ci ∧ t.responses = s.responses))

theorem advancesPort_recordFault (P : Response → Prop) (c : FaultCause) (w : Word) :
    AdvancesPort P s (recordFault c w s) :=
  ⟨rfl, .inr ⟨recordFault_faultCause_ne_zero c w s, rfl, rfl⟩⟩

theorem advancesPort_accept {P : Response → Prop} {r : Response} (h0 : s.faultCause = 0#3) (hr : P r) :
    AdvancesPort P s (accept r s) :=
  ⟨rfl, .inl ⟨h0, rfl, r, rfl, hr⟩⟩

theorem advancesPort_accept_transferFrame {P : Response → Prop} (h0 : s.faultCause = 0#3) (hr : P .none) :
    AdvancesPort P s (accept .none (transferFrame src bs s)) := by
  rw [transferFrame_eq]
  exact ⟨rfl, .inl ⟨h0, rfl, .none, rfl, hr⟩⟩

/-- The responses a command can give when it is accepted (10_state.md R34). -/
def responsesOf : Instr → Response → Prop
  | .init _ _, r => r = .ok ∨ r = .fail
  | .clear, r | .paint _ _, r | .fill _ _, r | .flush, r | .sendraw _, r => r = .none

theorem exec_advancesPort (h : exec i s = .next t) : AdvancesPort (responsesOf i) s t := by
  cases i with
  | init boards pin =>
    obtain ⟨h0, ⟨-, rfl⟩ | ⟨-, rfl⟩ | ⟨-, -, -, rfl⟩⟩ := initUnder_next h
    · exact advancesPort_recordFault _ _ _
    · exact advancesPort_accept h0 (.inr rfl)
    · exact advancesPort_accept (s := configure boards pin s) h0 (.inl rfl)
  | clear =>
    obtain ⟨h0, ⟨-, rfl⟩ | ⟨-, b, m, -, -, rfl⟩⟩ := execClear_next h
    · exact advancesPort_recordFault _ _ _
    · exact advancesPort_accept (s := setCanvas _ s) h0 rfl
  | paint pos v =>
    obtain ⟨h0, ⟨-, rfl⟩ | ⟨-, b, m, -, -, rfl⟩⟩ := execPaint_next h
    · exact advancesPort_recordFault _ _ _
    · exact advancesPort_accept (s := setCanvas _ s) h0 rfl
  | fill bar peak =>
    obtain ⟨h0, ⟨-, rfl⟩ | ⟨-, b, m, -, -, ⟨-, rfl⟩ | ⟨-, -, d, -, rfl⟩⟩⟩ := execFill_next h
    · exact advancesPort_recordFault _ _ _
    · exact advancesPort_accept h0 rfl
    · exact advancesPort_accept_transferFrame (s := setCanvas d s) h0 rfl
  | flush =>
    obtain ⟨h0, ⟨-, rfl⟩ | ⟨-, b, m, -, -, rfl⟩⟩ := execFlush_next h
    · exact advancesPort_recordFault _ _ _
    · exact advancesPort_accept_transferFrame h0 rfl
  | sendraw value =>
    obtain ⟨h0, ⟨-, rfl⟩ | ⟨-, rfl⟩⟩ := execSendraw_next h
    · exact advancesPort_recordFault _ _ _
    · exact advancesPort_accept_transferFrame h0 rfl

end StateInvariants

/-- Settles O3: each part of the invariant is kept by every effect of a command and by a decode fault. -/
theorem stepKeepsInvariant : Obligations.StepKeepsInvariant := fun _ _ => step_keeps_inv

/-- Settles O4: the canvas part of the invariant, and the length of the bytes it speaks of. -/
theorem canvasLengthInvariant : Obligations.CanvasLengthInvariant := by
  refine ⟨⟨rfl, rfl, rfl⟩, fun s t => step_keeps_canvasInv, fun s hs hr => ?_, fun s hs hu => ?_⟩
  · obtain ⟨b, pin, m, hb, -, hm, h1, h8, -, -⟩ := hs.of_ready hr
    refine ⟨b, _, hb, h1, h8, canvasBytes_eq hb hm, Memory.length_bytes _ _, ?_⟩
    rw [Memory.length_bytes]; omega
  · obtain ⟨hb, hp, hm⟩ := hs.of_uninit hu
    exact ⟨hm, hb, hp⟩

/-- Settles O5: INIT and every frame leave the line high, and no other command writes SEL or OUT. -/
theorem selectLineHighBetweenCommands : Obligations.SelectLineHighBetweenCommands :=
  ⟨⟨rfl, rfl⟩, fun _ _ => step_keeps_selInv⟩

/-- Settles O6, by the ways an effect can grow OUT; the line before a frame is high by the invariant. -/
theorem outputGrowsByWholeFrames : Obligations.OutputGrowsByWholeFrames := by
  intro s t h
  obtain hsame | hinit | ⟨bs, hr, hout, hsel⟩ := step_outGrows h
  · exact .inl hsame
  · exact .inr (.inl hinit)
  · exact .inr (.inr ⟨bs, hr, hout, fun ⟨_, hs, _⟩ => hs.sel_of_ready hr, hsel⟩)

/-- Settles O10, by what each command does to the port. -/
theorem acceptedCommandsAdvanceTheIndex : Obligations.AcceptedCommandsAdvanceTheIndex := by
  intro i s t h
  cases i <;> exact exec_advancesPort h

/-- Settles O32: of all effects from UNINIT only a completed INIT leaves READY. -/
theorem onlyInitEntersReady : Obligations.OnlyInitEntersReady := by
  intro s t hu h hr
  obtain ⟨-, ⟨-, rfl⟩ | ⟨w, hw, ⟨-, rfl⟩ | ⟨-, rfl⟩ | ⟨i, hd, hexec⟩⟩⟩ := step_next h
  · simp [hu] at hr
  · simp [hu] at hr
  · simp [hu] at hr
  · cases (exec_effect hexec).2 with
    | initDone boards pin hi _ h1 h8 => exact ⟨w, boards, pin, hw, hi ▸ hd, h1, h8, rfl⟩
    | notInitialized | initFailed => simp [hu] at hr
    | reinit hr' | noOp hr' | drawn _ _ _ hr' | filled _ _ _ _ _ hr' | flushed _ _ hr' | sent _ _ hr' =>
      simp [hu] at hr'

section OutputsUnread

variable {s t : State} {i : Instr} {b : BitVec 4} {m : Memory} {f g : State → State}

/-! ### What no command reads (10_state.md R24, R26, R30, R31) -/

/-- The state with other values of OUT, SEL, SELPIN and the record of the frames' sources. -/
def State.withOutputs (s : State) (out : List Event) (srcs : List FrameSource) (sel : SelLine)
    (pin : Option (BitVec 8)) : State :=
  { s with out := out, frameSources := srcs, sel := sel, selPin := pin }

/-- An update that reads none of them: it appends the same events and sources whatever they hold, and leaves the same
state but for them. -/
def ReadsNoOutput (f : State → State) : Prop :=
  ∀ s, ∃ es srcs', (f s).out = s.out ++ es ∧ (f s).frameSources = s.frameSources ++ srcs' ∧
    ∀ out srcs sel pin, ∃ sel',
      f (s.withOutputs out srcs sel pin) = (f s).withOutputs (out ++ es) (srcs ++ srcs') sel' pin

theorem ReadsNoOutput.comp (hg : ReadsNoOutput g) (hf : ReadsNoOutput f) : ReadsNoOutput (g ∘ f) := by
  intro s
  obtain ⟨es, srcs', ho, hs, hw⟩ := hf s
  obtain ⟨es₂, srcs₂, ho₂, hs₂, hw₂⟩ := hg (f s)
  refine ⟨es ++ es₂, srcs' ++ srcs₂, by simp [ho₂, ho], by simp [hs₂, hs], fun out srcs sel pin => ?_⟩
  obtain ⟨sel', he⟩ := hw out srcs sel pin
  obtain ⟨sel₂, he₂⟩ := hw₂ (out ++ es) (srcs ++ srcs') sel' pin
  exact ⟨sel₂, by rw [Function.comp_apply, he, he₂, List.append_assoc, List.append_assoc, Function.comp_apply]⟩

/-- An update that leaves them, and leaves the same state but for them whatever they hold. -/
theorem readsNoOutput_of_unchanged (ho : ∀ s, (f s).out = s.out) (hs : ∀ s, (f s).frameSources = s.frameSources)
    (hw : ∀ s out srcs sel pin, f (s.withOutputs out srcs sel pin) = (f s).withOutputs out srcs sel pin) :
    ReadsNoOutput f := by
  refine fun s => ⟨[], [], by simp [ho], by simp [hs], fun out srcs sel pin => ⟨sel, ?_⟩⟩
  rw [hw, List.append_nil, List.append_nil]

theorem readsNoOutput_accept (r : Response) : ReadsNoOutput (accept r) :=
  readsNoOutput_of_unchanged (fun _ => rfl) (fun _ => rfl) (fun _ _ _ _ _ => rfl)

theorem readsNoOutput_recordFault (c : FaultCause) (w : Word) : ReadsNoOutput (recordFault c w) :=
  readsNoOutput_of_unchanged (fun _ => rfl) (fun _ => rfl) (fun _ _ _ _ _ => rfl)

theorem readsNoOutput_setCanvas (d : Memory) : ReadsNoOutput (setCanvas d) :=
  readsNoOutput_of_unchanged (fun _ => rfl) (fun _ => rfl) (fun _ _ _ _ _ => rfl)

/-- A frame's events do not depend on what was sent before, and it leaves SEL high whatever SEL was. -/
theorem readsNoOutput_transferFrame (src : FrameSource) (bs : List Byte) : ReadsNoOutput (transferFrame src bs) := by
  refine fun s => ⟨frameEvents bs, [src], by simp, by simp, fun out srcs sel pin => ⟨.driven .high, ?_⟩⟩
  rw [transferFrame_eq, transferFrame_eq]; rfl

theorem exec_init_of_ready {boards pin : BitVec 8} (h0 : s.faultCause = 0#3) (hr : s.initState = .ready) :
    exec (.init boards pin) s = .next (recordFault .reinit (encode (.init boards pin)) s) :=
  whenUninit_ready h0 hr

theorem exec_fill_of_out_of_range {bar peak : BitVec 16} (h0 : s.faultCause = 0#3) (hr : s.initState = .ready)
    (hb : s.bc = some b) (hm : s.canvas = some m) (ha : adj1InRange b.toNat bar.toNat = false) :
    exec (.fill bar peak) s = .next (accept .none s) := by
  show execFill bar peak s = _
  rw [execFill, whenReady_ready h0 hr, withCanvas_some hb hm, if_neg (by simp [ha])]

/-- In READY a command is an update that reads no output, the same one whatever the outputs hold. -/
theorem exec_readsNoOutput (hr : s.initState = .ready) (h : exec i s = .next t) :
    ∃ f, ReadsNoOutput f ∧ t = f s ∧
      ∀ out srcs sel pin, exec i (s.withOutputs out srcs sel pin) = .next (f (s.withOutputs out srcs sel pin)) := by
  have hnu : s.initState ≠ .uninit := by simp [hr]
  cases i with
  | init boards pin =>
    obtain ⟨h0, ⟨-, rfl⟩ | ⟨hu, -⟩ | ⟨hu, -⟩⟩ := initUnder_next h
    · exact ⟨_, readsNoOutput_recordFault _ _, rfl, fun _ _ _ _ => exec_init_of_ready h0 hr⟩
    · exact absurd hu hnu
    · exact absurd hu hnu
  | clear =>
    obtain ⟨h0, ⟨hu, -⟩ | ⟨-, b, m, hb, hm, rfl⟩⟩ := execClear_next h
    · exact absurd hu hnu
    · exact ⟨_, (readsNoOutput_accept _).comp (readsNoOutput_setCanvas _), rfl,
        fun _ _ _ _ => exec_clear_of_ready h0 hr hb hm⟩
  | paint pos v =>
    obtain ⟨h0, ⟨hu, -⟩ | ⟨-, b, m, hb, hm, rfl⟩⟩ := execPaint_next h
    · exact absurd hu hnu
    · exact ⟨_, (readsNoOutput_accept _).comp (readsNoOutput_setCanvas _), rfl,
        fun _ _ _ _ => exec_paint_of_ready h0 hr hb hm⟩
  | fill bar peak =>
    obtain ⟨h0, ⟨hu, -⟩ | ⟨-, b, m, hb, hm, ⟨ha, rfl⟩ | ⟨ha, hlt, d, rfl, rfl⟩⟩⟩ := execFill_next h
    · exact absurd hu hnu
    · exact ⟨_, readsNoOutput_accept _, rfl, fun _ _ _ _ => exec_fill_of_out_of_range h0 hr hb hm ha⟩
    · exact ⟨_, (readsNoOutput_accept _).comp ((readsNoOutput_transferFrame _ _).comp (readsNoOutput_setCanvas _)),
        rfl, fun _ _ _ _ => exec_fill_of_ready h0 hr hb hm (by omega) ha⟩
  | flush =>
    obtain ⟨h0, ⟨hu, -⟩ | ⟨-, b, m, hb, hm, rfl⟩⟩ := execFlush_next h
    · exact absurd hu hnu
    · exact ⟨_, (readsNoOutput_accept _).comp (readsNoOutput_transferFrame _ _), rfl,
        fun _ _ _ _ => exec_flush_of_ready h0 hr hb hm⟩
  | sendraw value =>
    obtain ⟨h0, ⟨hu, -⟩ | ⟨-, rfl⟩⟩ := execSendraw_next h
    · exact absurd hu hnu
    · exact ⟨_, (readsNoOutput_accept _).comp (readsNoOutput_transferFrame _ _), rfl,
        fun _ _ _ _ => exec_sendraw_of_ready h0 hr⟩

end OutputsUnread

/-- Settles O51: in READY a command is one update whatever the outputs hold, and that update reads none of them. -/
theorem outputsAreNeverRead : Obligations.OutputsAreNeverRead := by
  intro i s t out srcs sel pin hr h
  obtain ⟨f, hf, rfl, hexec⟩ := exec_readsNoOutput hr h
  obtain ⟨es, srcs', ho, hs, hw⟩ := hf s
  obtain ⟨sel', he⟩ := hw out srcs sel pin
  exact ⟨es, srcs', sel', ho, hs, (hexec out srcs sel pin).trans (congrArg _ he)⟩

section LastFlushFrame

variable {s t : State} {b : BitVec 4} {m : Memory}

/-! ### The flushed canvas (10_state.md R30) -/

theorem flushed_iff : s.flushed = true ↔ ∃ bs, s.canvasBytes = some bs ∧ s.lastFlushFrame = some bs.reverse := by
  rw [State.flushed]
  cases s.canvasBytes with
  | none => simp
  | some bs =>
    cases s.lastFlushFrame with
    | none => simp
    | some f => simp [eq_comm (a := bs), List.reverse_eq_iff]

@[simp] theorem lastFlushFrame_accept (r : Response) (s : State) :
    (accept r s).lastFlushFrame = s.lastFlushFrame := rfl

@[simp] theorem lastFlushFrame_setCanvas (m : Memory) (s : State) :
    (setCanvas m s).lastFlushFrame = s.lastFlushFrame := rfl

@[simp] theorem canvasBytes_accept (r : Response) (s : State) : (accept r s).canvasBytes = s.canvasBytes := rfl

@[simp] theorem canvasBytes_transferFrame (src : FrameSource) (bs : List Byte) (s : State) :
    (transferFrame src bs s).canvasBytes = s.canvasBytes := by
  simp [State.canvasBytes]

/-- `flushed` reads the canvas and the last FLUSH frame only. -/
theorem flushed_congr (hc : t.canvasBytes = s.canvasBytes) (hl : t.lastFlushFrame = s.lastFlushFrame) :
    t.flushed = s.flushed := by
  rw [State.flushed, State.flushed, hc, hl]

theorem lastFlushFrame_of_no_frames (h : s.frameSources = []) : s.lastFlushFrame = none := by
  simp [State.lastFlushFrame, State.sourcedFrames, h]

theorem flushed_of_no_flush_frame (h : s.lastFlushFrame = none) : s.flushed = false := by
  rw [← Bool.not_eq_true, flushed_iff]; simp [h]

/-- A command that ends with the frame of the canvas in place leaves the canvas flushed. -/
theorem flushed_of_frameBytes (hb : s.bc = some b) (hm : s.canvas = some m)
    (hn : s.frameSources.length = s.frames.length)
    (ht : t = accept .none (transferFrame .flush (m.frameBytes b.toNat) s)) :
    t.lastFlushFrame = t.canvasBytes.map List.reverse ∧ t.flushed = true := by
  have hc : t.canvasBytes = some (m.bytes (4 * b.toNat)) := by simp [ht, canvasBytes_eq hb hm]
  have hl : t.lastFlushFrame = some (m.bytes (4 * b.toNat)).reverse := by
    rw [ht, lastFlushFrame_accept, lastFlushFrame_flush hn, Memory.frameBytes]
  exact ⟨by simp [hl, hc], flushed_iff.mpr ⟨_, hc, hl⟩⟩

theorem adj1InRange_eq_true_iff_le {boards bar : Nat} : adj1InRange boards bar = true ↔ adj1 bar ≤ 32 * boards :=
  decide_eq_true_iff

end LastFlushFrame

/-- Settles O53: each accepted command's effect on the canvas and on the last FLUSH frame. -/
theorem flushedFollowsTheLastFlushFrame : Obligations.FlushedFollowsTheLastFlushFrame := by
  refine ⟨fun s => flushed_iff, fun i s t hs h hacc => ?_⟩
  obtain ⟨-, -, htrace, -, -⟩ := hs
  have hn := htrace.frameSources_length
  cases i with
  | init boards pin =>
    have hnone : t.frameSources = [] := by
      obtain ⟨-, ⟨-, rfl⟩ | ⟨hu, rfl⟩ | ⟨hu, -, -, rfl⟩⟩ := initUnder_next h
      · exact absurd hacc (recordFault_faultCause_ne_zero _ _ _)
      · exact (htrace.of_uninit hu).2
      · exact (htrace.of_uninit hu).2
    exact ⟨lastFlushFrame_of_no_frames hnone, flushed_of_no_flush_frame (lastFlushFrame_of_no_frames hnone)⟩
  | clear =>
    obtain ⟨-, ⟨-, rfl⟩ | ⟨-, b, m, -, -, rfl⟩⟩ := execClear_next h
    · exact absurd hacc (recordFault_faultCause_ne_zero _ _ _)
    · simp
  | paint pos v =>
    obtain ⟨-, ⟨-, rfl⟩ | ⟨-, b, m, -, -, rfl⟩⟩ := execPaint_next h
    · exact absurd hacc (recordFault_faultCause_ne_zero _ _ _)
    · simp
  | fill bar peak =>
    obtain ⟨-, ⟨-, rfl⟩ | ⟨-, b, m, hb, hm, ⟨ha, rfl⟩ | ⟨ha, -, d, -, rfl⟩⟩⟩ := execFill_next h
    · exact absurd hacc (recordFault_faultCause_ne_zero _ _ _)
    · have hle : ¬adj1 bar.toNat ≤ 32 * b.toNat := by simp [← adj1InRange_eq_true_iff_le, ha]
      simp only [hb, Option.map_some, Option.getD_some, if_neg hle]
      exact ⟨rfl, rfl⟩
    · have hle := adj1InRange_eq_true_iff_le.mp ha
      simp only [hb, Option.map_some, Option.getD_some, if_pos hle]
      exact flushed_of_frameBytes (s := setCanvas d s) hb rfl hn rfl
  | flush =>
    obtain ⟨-, ⟨-, rfl⟩ | ⟨-, b, m, hb, hm, rfl⟩⟩ := execFlush_next h
    · exact absurd hacc (recordFault_faultCause_ne_zero _ _ _)
    · simpa using flushed_of_frameBytes hb hm hn rfl
  | sendraw value =>
    obtain ⟨-, ⟨-, rfl⟩ | ⟨-, rfl⟩⟩ := execSendraw_next h
    · exact absurd hacc (recordFault_faultCause_ne_zero _ _ _)
    · have hl := lastFlushFrame_sendraw (bs := rawBytes value) hn
      exact ⟨hl, flushed_congr (canvasBytes_transferFrame _ _ _) hl⟩

end Sys2Proof.Machine

/-!
The statements on the canvas as memory (20_memory.md): what running a command a second time does to it (R58), and the
canvas read as a number (R53).
-/

namespace Sys2Proof.Machine

section CanvasMemory

variable {s : State} {b : BitVec 4} {m : Memory} {bs : List Byte}

/-! ### Writing the same canvas again (20_memory.md R58) -/

theorem Memory.writeBelow_idem (n : Nat) (v : Byte) (hw : m.wf = true) :
    (m.writeBelow n v).writeBelow n v = m.writeBelow n v := by
  have hw' := Memory.wf_writeBelow n v hw
  refine Memory.ext_of_wf (Memory.wf_writeBelow n v hw') hw' (fun a => ?_)
  rw [Memory.read_writeBelow _ n a v]
  split
  · next ha => simp [ha]
  · rfl

theorem Memory.paint_idem (boards L : Nat) (v : Bool) (hw : m.wf = true) (hl : m.Below (4 * boards)) :
    (m.paint boards L v).paint boards L v = m.paint boards L v := by
  have hw' := Memory.wf_paint boards L v hw
  have hl' := Memory.below_paint boards L v hl
  refine Memory.ext_of_bits (Memory.wf_paint boards L v hw') hw' (Memory.below_paint boards L v hl') hl' (fun p _ => ?_)
  rw [Memory.bit_paint (m.paint boards L v)]
  split
  · next hp => rw [Memory.bit_paint, if_pos hp]
  · rfl

/-! ### The canvas number (20_memory.md R53) -/

theorem bytesNumber_eq_sum (bs : List Byte) :
    bytesNumber bs = ((List.range bs.length).map (fun i => (bs.getD i 0x00#8).toNat * 2 ^ (8 * i))).sum := by
  induction bs with
  | nil => rfl
  | cons x bs ih =>
    have hshift : ∀ i, (bs.getD i 0x00#8).toNat * 2 ^ (8 * (i + 1)) =
        256 * ((bs.getD i 0x00#8).toNat * 2 ^ (8 * i)) := by
      intro i; rw [Nat.mul_succ, Nat.pow_add]; ring
    simp only [bytesNumber, ih, List.length_cons, List.range_succ_eq_map, List.map_cons, List.map_map, List.sum_cons,
      Function.comp_def, List.getD_cons_zero, List.getD_cons_succ, Nat.succ_eq_add_one, hshift, List.sum_map_mul_left,
      Nat.mul_zero, Nat.pow_zero, Nat.mul_one]

theorem pow_256_eq_two_pow (n : Nat) : 256 ^ n = 2 ^ (8 * n) := by
  rw [Nat.pow_mul]

/-- Bit `p` of the number is bit `p mod 8` of byte `p div 8`. -/
theorem testBit_bytesNumber {p : Nat} (hp : p / 8 < bs.length) :
    (bytesNumber bs).testBit p = (bs.getD (p / 8) 0x00#8).getLsbD (p % 8) := by
  rw [BitVec.getLsbD, ← bytesNumber_div_mod bs _ hp, pow_256_eq_two_pow, show 256 = 2 ^ 8 from rfl,
    Nat.testBit_mod_two_pow, Nat.testBit_div_two_pow, Nat.mod_add_div]
  simp [Nat.mod_lt]

theorem Memory.getD_bytes (m : Memory) {n i : Nat} (hi : i < n) : (m.bytes n).getD i 0x00#8 = m.read i := by
  rw [List.getD_eq_getElem?_getD, Memory.getElem?_bytes, if_pos hi, Option.getD_some]

/-- The bytes of the canvas, where they can be read, are those of a canvas that exists. -/
theorem canvas_of_canvasBytes (hb : s.bc = some b) (h : s.canvasBytes = some bs) :
    ∃ m, s.canvas = some m ∧ bs = m.bytes (4 * b.toNat) := by
  cases hm : s.canvas with
  | none => simp [State.canvasBytes, hb, hm] at h
  | some m => exact ⟨m, rfl, Option.some.inj (h.symm.trans (canvasBytes_eq hb hm))⟩

end CanvasMemory

/-- Settles O43: the second CLEAR or PAINT writes what the first wrote, and FLUSH writes no canvas byte. -/
theorem canvasCommandsAreIdempotent : Obligations.CanvasCommandsAreIdempotent := by
  rintro i s hi ⟨hs, -⟩ hr h0
  obtain ⟨b, pin, m, hb, -, hm, -, -, hw, hl⟩ := hs.of_ready hr
  obtain rfl | rfl | ⟨pos, v, rfl⟩ := hi
  · exact ⟨_, _, exec_clear_of_ready h0 hr hb hm, exec_clear_of_ready h0 hr hb rfl,
      congrArg some (Memory.writeBelow_idem _ _ hw)⟩
  · exact ⟨_, _, exec_flush_of_ready h0 hr hb hm,
      exec_flush_of_ready (by simpa using h0) (by simpa using hr) (by simpa using hb) (by simpa using hm), by simp⟩
  · exact ⟨_, _, exec_paint_of_ready h0 hr hb hm, exec_paint_of_ready h0 hr hb rfl,
      congrArg some (Memory.paint_idem _ _ _ hw hl)⟩

/-- Settles O46: the sum, the bound and the bits of any list of bytes, for the canvas's own bytes. -/
theorem canvasIsALittleEndianNumber : Obligations.CanvasIsALittleEndianNumber := by
  intro s b bs hb hbs
  obtain ⟨m, hm, rfl⟩ := canvas_of_canvasBytes hb hbs
  have hlen := Memory.length_bytes m (4 * b.toNat)
  refine ⟨?_, ?_, fun p hp => ?_⟩
  · simpa only [hlen] using bytesNumber_eq_sum (m.bytes (4 * b.toNat))
  · have hlt := bytesNumber_lt (m.bytes (4 * b.toNat))
    rwa [hlen, pow_256_eq_two_pow, ← Nat.mul_assoc] at hlt
  · have hi : p / 8 < 4 * b.toNat := by omega
    rw [canvasBit_eq hb hm, if_pos hp, testBit_bytesNumber (by rwa [hlen]), Memory.getD_bytes m hi, Memory.bit]

end Sys2Proof.Machine

/-!
The statements on the encoding (30_encoding.md). The three answers of the decoder are characterised once: a command
exactly on that command's word (`decode_eq_instr_iff`), RESERVED_BITS exactly on a legal opcode with a reserved bit set
(`decode_eq_reservedBits_iff`), ILLEGAL_OPCODE on every other word (`decode_eq_illegalOpcode_iff`). The opcode table,
the assembler and the step are then read off these.
-/

namespace Sys2Proof

section Encoding

variable {w : Word} {i : Instr} {c : Call} {d : Decoded}

/-! ### Fields as numbers -/

theorem field_eq_iff {lo width : Nat} {x : BitVec width} :
    field w lo width = x ↔ w.toNat / 2 ^ lo % 2 ^ width = x.toNat := by
  rw [← field_toNat, BitVec.toNat_inj]

theorem field_eq_ofNat (w : Word) (lo width : Nat) :
    field w lo width = BitVec.ofNat width (w.toNat / 2 ^ lo % 2 ^ width) := by
  rw [field_eq_iff, BitVec.toNat_ofNat, Nat.mod_mod]

theorem field_low_eq_zero_iff {width : Nat} : field w 0 width = 0#width ↔ w.toNat % 2 ^ width = 0 := by
  rw [field_eq_zero_iff, Nat.pow_zero, Nat.div_one]

theorem getLsbD_toNat (w : Word) (k : Nat) : (w.getLsbD k).toNat = w.toNat / 2 ^ k % 2 :=
  Nat.toNat_testBit _ _

/-! ### Decoding a command's word (R73 to R79) -/

/-- The opcode of a command (R72). -/
def Instr.opcode : Instr → BitVec 8
  | .init _ _ => 0x01#8
  | .clear => 0x02#8
  | .paint _ _ => 0x03#8
  | .fill _ _ => 0x04#8
  | .flush => 0x05#8
  | .sendraw _ => 0x06#8

@[simp] theorem opField_encode (i : Instr) : opField (encode i) = i.opcode := by
  rw [opField_eq_iff, encode_toNat]
  cases i with
  | init boards pin => simp only [Instr.opcode, BitVec.reduceToNat]; omega
  | clear => rfl
  | paint pos v => have := v.toNat_le; simp only [Instr.opcode, BitVec.reduceToNat]; omega
  | fill bar peak => simp only [Instr.opcode, BitVec.reduceToNat]; omega
  | flush => rfl
  | sendraw value => simp only [Instr.opcode, BitVec.reduceToNat]; omega

theorem decodeInit_encode (boards pin : BitVec 8) :
    decodeInit (encode (.init boards pin)) = .instr (.init boards pin) := by
  have hreserved : field (encode (.init boards pin)) 16 16 = 0#16 := by
    rw [field_eq_zero_iff, encode_toNat]; dsimp only; omega
  have hboards : field (encode (.init boards pin)) 0 8 = boards := by
    rw [field_eq_iff, encode_toNat]; dsimp only; omega
  have hpin : field (encode (.init boards pin)) 8 8 = pin := by
    rw [field_eq_iff, encode_toNat]; dsimp only; omega
  rw [decodeInit, if_pos hreserved, hboards, hpin]

theorem decodePaint_encode (pos : BitVec 16) (v : Bool) :
    decodePaint (encode (.paint pos v)) = .instr (.paint pos v) := by
  have hv := v.toNat_le
  have hreserved : field (encode (.paint pos v)) 17 15 = 0#15 := by
    rw [field_eq_zero_iff, encode_toNat]; dsimp only; omega
  have hpos : field (encode (.paint pos v)) 0 16 = pos := by
    rw [field_eq_iff, encode_toNat]; dsimp only; omega
  have hbit : (encode (.paint pos v)).getLsbD 16 = v := by
    have hnat : ((encode (.paint pos v)).getLsbD 16).toNat = v.toNat := by
      rw [getLsbD_toNat, encode_toNat]; dsimp only; omega
    have hof := congrArg Bool.ofNat hnat
    rwa [Bool.ofNat_toNat, Bool.ofNat_toNat] at hof
  rw [decodePaint, if_pos hreserved, hpos, hbit]

theorem decodeFill_encode (bar peak : BitVec 16) :
    decodeFill (encode (.fill bar peak)) = .instr (.fill bar peak) := by
  have hbar : field (encode (.fill bar peak)) 0 16 = bar := by
    rw [field_eq_iff, encode_toNat]; dsimp only; omega
  have hpeak : field (encode (.fill bar peak)) 16 16 = peak := by
    rw [field_eq_iff, encode_toNat]; dsimp only; omega
  rw [decodeFill, hbar, hpeak]

theorem decodeSendraw_encode (value : BitVec 32) :
    decodeSendraw (encode (.sendraw value)) = .instr (.sendraw value) := by
  have hvalue : field (encode (.sendraw value)) 0 32 = value := by
    rw [field_eq_iff, encode_toNat]; dsimp only; omega
  rw [decodeSendraw, hvalue]

/-- The opcode picks the command's own decoder, and that decoder finds every operand in its field. -/
theorem decode_encode (i : Instr) : decode (encode i) = .instr i := by
  rw [decode, opField_encode]
  cases i with
  | init boards pin => exact decodeInit_encode boards pin
  | clear => rfl
  | paint pos v => exact decodePaint_encode pos v
  | fill bar peak => exact decodeFill_encode bar peak
  | flush => rfl
  | sendraw value => exact decodeSendraw_encode value

/-! ### A word from its fields (R73 to R78, R84) -/

theorem encode_init_fields (hop : w.toNat / 2 ^ 32 = 1) (hr : w.toNat / 2 ^ 16 % 2 ^ 16 = 0) :
    encode (.init (field w 0 8) (field w 8 8)) = w := by
  apply BitVec.eq_of_toNat_eq
  rw [encode_toNat]; simp only [field_toNat]; omega

theorem encode_clear_eq (hop : w.toNat / 2 ^ 32 = 2) (hr : w.toNat % 2 ^ 32 = 0) : encode .clear = w := by
  apply BitVec.eq_of_toNat_eq
  rw [encode_toNat]; dsimp only; omega

theorem encode_paint_fields (hop : w.toNat / 2 ^ 32 = 3) (hr : w.toNat / 2 ^ 17 % 2 ^ 15 = 0) :
    encode (.paint (field w 0 16) (w.getLsbD 16)) = w := by
  apply BitVec.eq_of_toNat_eq
  rw [encode_toNat]; simp only [field_toNat, getLsbD_toNat]; omega

theorem encode_fill_fields (hop : w.toNat / 2 ^ 32 = 4) : encode (.fill (field w 0 16) (field w 16 16)) = w := by
  apply BitVec.eq_of_toNat_eq
  rw [encode_toNat]; simp only [field_toNat]; omega

theorem encode_flush_eq (hop : w.toNat / 2 ^ 32 = 5) (hr : w.toNat % 2 ^ 32 = 0) : encode .flush = w := by
  apply BitVec.eq_of_toNat_eq
  rw [encode_toNat]; dsimp only; omega

theorem encode_sendraw_fields (hop : w.toNat / 2 ^ 32 = 6) : encode (.sendraw (field w 0 32)) = w := by
  apply BitVec.eq_of_toNat_eq
  rw [encode_toNat]; simp only [field_toNat]; omega

/-! ### Everything the decoder can answer (R80 to R82) -/

/-- A legal opcode with one of its reserved bits set (R82). -/
def HasReservedBit (w : Word) : Prop :=
  (w.toNat / 2 ^ 32 = 1 ∧ w.toNat / 2 ^ 16 % 2 ^ 16 ≠ 0) ∨
  (w.toNat / 2 ^ 32 = 2 ∧ w.toNat % 2 ^ 32 ≠ 0) ∨
  (w.toNat / 2 ^ 32 = 3 ∧ w.toNat / 2 ^ 17 % 2 ^ 15 ≠ 0) ∨
  (w.toNat / 2 ^ 32 = 5 ∧ w.toNat % 2 ^ 32 ≠ 0)

/-- The opcode names no command (R81). -/
def HasIllegalOpcode (w : Word) : Prop := w.toNat / 2 ^ 32 = 0 ∨ 7 ≤ w.toNat / 2 ^ 32

/-- The three answers, each with what it says of the word. -/
inductive DecodeCase (w : Word) : Decoded → Prop where
  | instr (i : Instr) (h : encode i = w) : DecodeCase w (.instr i)
  | reservedBits (h : HasReservedBit w) : DecodeCase w .reservedBits
  | illegalOpcode (h : HasIllegalOpcode w) : DecodeCase w .illegalOpcode

/-- A decoder that checks reserved bits answers the command it reads, or RESERVED_BITS. -/
theorem decodeCase_ite {p : Prop} [Decidable p] (hi : p → encode i = w) (hr : ¬p → HasReservedBit w) :
    DecodeCase w (if p then .instr i else .reservedBits) := by
  split
  · exact .instr i (hi ‹_›)
  · exact .reservedBits (hr ‹_›)

theorem decode_case (w : Word) : DecodeCase w (decode w) := by
  rw [decode]
  simp only [opField_eq_iff, BitVec.reduceToNat]
  split
  · next hop =>
    exact decodeCase_ite (fun hr => encode_init_fields hop ((field_eq_zero_iff _ _ _).mp hr))
      (fun hr => .inl ⟨hop, mt (field_eq_zero_iff _ _ _).mpr hr⟩)
  split
  · next hop =>
    exact decodeCase_ite (fun hr => encode_clear_eq hop (field_low_eq_zero_iff.mp hr))
      (fun hr => .inr (.inl ⟨hop, mt field_low_eq_zero_iff.mpr hr⟩))
  split
  · next hop =>
    exact decodeCase_ite (fun hr => encode_paint_fields hop ((field_eq_zero_iff _ _ _).mp hr))
      (fun hr => .inr (.inr (.inl ⟨hop, mt (field_eq_zero_iff _ _ _).mpr hr⟩)))
  split
  · next hop => exact .instr _ (encode_fill_fields hop)
  split
  · next hop =>
    exact decodeCase_ite (fun hr => encode_flush_eq hop (field_low_eq_zero_iff.mp hr))
      (fun hr => .inr (.inr (.inr ⟨hop, mt field_low_eq_zero_iff.mpr hr⟩)))
  split
  · next hop => exact .instr _ (encode_sendraw_fields hop)
  · exact .illegalOpcode (by rw [HasIllegalOpcode]; omega)

theorem decodeCase_of_decode (h : decode w = d) : DecodeCase w d := h ▸ decode_case w

theorem decode_eq_instr_iff : decode w = .instr i ↔ encode i = w := by
  constructor
  · intro h
    cases decodeCase_of_decode h with
    | instr i h => exact h
  · rintro rfl
    exact decode_encode i

theorem HasReservedBit.not_illegalOpcode (h : HasReservedBit w) : ¬HasIllegalOpcode w := by
  rw [HasReservedBit] at h
  rw [HasIllegalOpcode]
  omega

theorem not_hasReservedBit_encode (i : Instr) : ¬HasReservedBit (encode i) := by
  rw [HasReservedBit, encode_toNat]
  cases i with
  | init boards pin => dsimp only; omega
  | clear => decide
  | paint pos v => have := v.toNat_le; dsimp only; omega
  | fill bar peak => dsimp only; omega
  | flush => decide
  | sendraw value => dsimp only; omega

theorem Instr.opcode_legal (i : Instr) : 1 ≤ i.opcode.toNat ∧ i.opcode.toNat ≤ 6 := by
  cases i <;> simp [Instr.opcode]

theorem not_hasIllegalOpcode_encode (i : Instr) : ¬HasIllegalOpcode (encode i) := by
  have hop := (opField_eq_iff _ _).mp (opField_encode i)
  have := i.opcode_legal
  rw [HasIllegalOpcode]
  omega

theorem decode_eq_reservedBits_iff : decode w = .reservedBits ↔ HasReservedBit w := by
  constructor
  · intro h
    cases decodeCase_of_decode h with
    | reservedBits h => exact h
  · intro h
    cases hd : decode w with
    | instr i => exact absurd (decode_eq_instr_iff.mp hd ▸ h) (not_hasReservedBit_encode i)
    | reservedBits => rfl
    | illegalOpcode =>
      cases decodeCase_of_decode hd with
      | illegalOpcode hi => exact absurd hi h.not_illegalOpcode

theorem decode_eq_illegalOpcode_iff : decode w = .illegalOpcode ↔ HasIllegalOpcode w := by
  constructor
  · intro h
    cases decodeCase_of_decode h with
    | illegalOpcode h => exact h
  · intro h
    cases hd : decode w with
    | instr i => exact absurd (decode_eq_instr_iff.mp hd ▸ h) (not_hasIllegalOpcode_encode i)
    | reservedBits => exact absurd h (decode_eq_reservedBits_iff.mp hd).not_illegalOpcode
    | illegalOpcode => rfl

/-- A word with neither fault is a command's. -/
theorem exists_decode_eq_instr (hi : ¬HasIllegalOpcode w) (hr : ¬HasReservedBit w) : ∃ i, decode w = .instr i := by
  cases hd : decode w with
  | instr i => exact ⟨i, rfl⟩
  | reservedBits => exact absurd (decode_eq_reservedBits_iff.mp hd) hr
  | illegalOpcode => exact absurd (decode_eq_illegalOpcode_iff.mp hd) hi

theorem hasIllegalOpcode_ofNat {op : Nat} (h : op < 256) :
    HasIllegalOpcode (BitVec.ofNat 40 (op * 2 ^ 32)) ↔ op = 0 ∨ 7 ≤ op := by
  rw [HasIllegalOpcode, BitVec.toNat_ofNat]
  omega

/-- Opcode 0x00 and the 249 opcodes from 0x07 on (R81). -/
theorem length_illegalOpcodes :
    ((List.range 256).filter (fun op => decide (op = 0 ∨ 7 ≤ op))).length = 250 := by
  have hlow : (List.range 7).filter (fun op => decide (op = 0 ∨ 7 ≤ op)) = [0] := by decide
  have hhigh : ((List.range 249).map (7 + ·)).filter (fun op => decide (op = 0 ∨ 7 ≤ op)) =
      (List.range 249).map (7 + ·) := List.filter_eq_self.mpr (by simp)
  rw [show 256 = 7 + 249 from rfl, List.range_add, List.filter_append, hlow, hhigh]
  simp

theorem decodeTableWord_eq_some_iff {nbits n : Nat} :
    decodeTableWord nbits n = some i ↔ decode (BitVec.ofNat 40 (n % 2 ^ nbits)) = .instr i := by
  rw [decodeTableWord]
  cases decode (BitVec.ofNat 40 (n % 2 ^ nbits)) <;> simp

/-! ### Each decoder by the rule's arithmetic (R80) -/

theorem decodeInit_eq (w : Word) : decodeInit w =
    if w.toNat / 2 ^ 16 % 2 ^ 16 ≠ 0 then .reservedBits
    else .instr (.init (BitVec.ofNat 8 (w.toNat % 2 ^ 8)) (BitVec.ofNat 8 (w.toNat / 2 ^ 8 % 2 ^ 8))) := by
  rw [decodeInit, ite_not]
  simp only [field_eq_zero_iff, field_eq_ofNat w _ 8, Nat.pow_zero, Nat.div_one]

theorem decodeClear_eq (w : Word) : decodeClear w =
    if w.toNat % 2 ^ 32 ≠ 0 then .reservedBits else .instr .clear := by
  rw [decodeClear, ite_not]
  simp only [field_low_eq_zero_iff]

theorem decodePaint_eq (w : Word) : decodePaint w =
    if w.toNat / 2 ^ 17 % 2 ^ 15 ≠ 0 then .reservedBits
    else .instr (.paint (BitVec.ofNat 16 (w.toNat % 2 ^ 16)) (w.toNat / 2 ^ 16 % 2 == 1)) := by
  have hbit : w.getLsbD 16 = (w.toNat / 2 ^ 16 % 2 == 1) := Nat.testBit_eq_decide_div_mod_eq
  rw [decodePaint, ite_not, hbit]
  simp only [field_eq_zero_iff, field_eq_ofNat w _ 16, Nat.pow_zero, Nat.div_one]

theorem decodeFill_eq (w : Word) : decodeFill w =
    .instr (.fill (BitVec.ofNat 16 (w.toNat % 2 ^ 16)) (BitVec.ofNat 16 (w.toNat / 2 ^ 16 % 2 ^ 16))) := by
  rw [decodeFill, field_eq_ofNat, field_eq_ofNat, Nat.pow_zero, Nat.div_one]

theorem decodeFlush_eq (w : Word) : decodeFlush w =
    if w.toNat % 2 ^ 32 ≠ 0 then .reservedBits else .instr .flush := by
  rw [decodeFlush, ite_not]
  simp only [field_low_eq_zero_iff]

theorem decodeSendraw_eq (w : Word) : decodeSendraw w = .instr (.sendraw (BitVec.ofNat 32 (w.toNat % 2 ^ 32))) := by
  rw [decodeSendraw, field_eq_ofNat, Nat.pow_zero, Nat.div_one]

/-! ### The opcode table (R72 to R78) -/

theorem exists_row_matches_encode (i : Instr) :
    ∃ r ∈ opcodeTable, r.mnemonic = i.mnemonic ∧ r.matches (encode i) = true := by
  cases i with
  | init boards pin => exact Laws.EncodedRow.init boards pin
  | clear => exact Laws.EncodedRow.clear
  | paint pos v => exact Laws.EncodedRow.paint pos v
  | fill bar peak => exact Laws.EncodedRow.fill bar peak
  | flush => exact Laws.EncodedRow.flush
  | sendraw value => exact Laws.EncodedRow.sendraw value

theorem row_ext_of_mnemonic : ∀ r ∈ opcodeTable, ∀ r' ∈ opcodeTable, r.mnemonic = r'.mnemonic → r = r' := by
  decide

theorem opcodeTable_mnemonics_distinct : opcodeTable.Pairwise (fun r r' => r.mnemonic ≠ r'.mnemonic) := by
  decide

/-- A word that matches a row is the word of a command of the row's mnemonic, whose operands are the word's fields. -/
theorem exists_encode_of_row_matches {r : Row} (hr : r ∈ opcodeTable) (h : r.matches w = true) :
    ∃ i, encode i = w ∧ i.mnemonic = r.mnemonic := by
  have hw := fun k hmask => (Row.matches_iff r k w hmask).mp h
  simp only [opcodeTable, List.mem_cons, List.not_mem_nil, or_false] at hr
  obtain rfl | rfl | rfl | rfl | rfl | rfl := hr
  · have hbits : w.toNat / 2 ^ 16 * 2 ^ 16 = 0x0100000000 := hw 16 (by decide)
    exact ⟨_, encode_init_fields (by omega) (by omega), rfl⟩
  · have hbits : w.toNat / 2 ^ 0 * 2 ^ 0 = 0x0200000000 := hw 0 (by decide)
    exact ⟨_, encode_clear_eq (by omega) (by omega), rfl⟩
  · have hbits : w.toNat / 2 ^ 17 * 2 ^ 17 = 0x0300000000 := hw 17 (by decide)
    exact ⟨_, encode_paint_fields (by omega) (by omega), rfl⟩
  · have hbits : w.toNat / 2 ^ 32 * 2 ^ 32 = 0x0400000000 := hw 32 (by decide)
    exact ⟨_, encode_fill_fields (by omega), rfl⟩
  · have hbits : w.toNat / 2 ^ 0 * 2 ^ 0 = 0x0500000000 := hw 0 (by decide)
    exact ⟨_, encode_flush_eq (by omega) (by omega), rfl⟩
  · have hbits : w.toNat / 2 ^ 32 * 2 ^ 32 = 0x0600000000 := hw 32 (by decide)
    exact ⟨_, encode_sendraw_fields (by omega), rfl⟩

theorem row_matches_iff {r : Row} (hr : r ∈ opcodeTable) :
    r.matches w = true ↔ ∃ i, decode w = .instr i ∧ i.mnemonic = r.mnemonic := by
  simp only [decode_eq_instr_iff]
  constructor
  · exact exists_encode_of_row_matches hr
  · rintro ⟨i, rfl, hm⟩
    obtain ⟨r', hr', hm', h⟩ := exists_row_matches_encode i
    rwa [row_ext_of_mnemonic r hr r' hr' (hm.symm.trans hm'.symm)]

/-! ### Operations and their commands (R79, R85) -/

theorem Call.toCall_fields (h : c.wellFormed = true) : c.fields.toCall = c := by
  cases c with
  | init boards pin =>
    obtain ⟨hb, hp⟩ : boards < 2 ^ 8 ∧ pin < 2 ^ 8 := by simpa [Call.wellFormed] using h
    simp only [Call.fields, Instr.toCall, BitVec.toNat_ofNat, Nat.mod_eq_of_lt hb, Nat.mod_eq_of_lt hp]
  | clear => rfl
  | paint pos v =>
    obtain ⟨hp, hv⟩ : pos < 2 ^ 16 ∧ v < 2 := by simpa [Call.wellFormed] using h
    have hbit : (v == 1).toNat = v := by interval_cases v <;> rfl
    simp only [Call.fields, Instr.toCall, BitVec.toNat_ofNat, Nat.mod_eq_of_lt hp, hbit]
  | fill bar peak =>
    obtain ⟨hb, hp⟩ : bar < 2 ^ 16 ∧ peak < 2 ^ 16 := by simpa [Call.wellFormed] using h
    simp only [Call.fields, Instr.toCall, BitVec.toNat_ofNat, Nat.mod_eq_of_lt hb, Nat.mod_eq_of_lt hp]
  | flush => rfl
  | sendraw value =>
    have hv : value < 2 ^ 32 := by simpa [Call.wellFormed] using h
    simp only [Call.fields, Instr.toCall, BitVec.toNat_ofNat, Nat.mod_eq_of_lt hv]

theorem Call.toInstr_eq_some_iff : c.toInstr = some i ↔ c.wellFormed = true ∧ c.fields = i := by
  simp [Call.toInstr]

/-- The number of an operation's word, as the table of R85 writes it. -/
def Call.number : Call → Nat
  | .init boards pin => (0x01 <<< 32) ||| (pin <<< 8) ||| boards
  | .clear => 0x0200000000
  | .paint pos v => (0x03 <<< 32) ||| (v <<< 16) ||| pos
  | .fill bar peak => (0x04 <<< 32) ||| (peak <<< 16) ||| bar
  | .flush => 0x0500000000
  | .sendraw value => (0x06 <<< 32) ||| value

/-- A field put below the lowest bit set so far is added. -/
theorem or_eq_add_of_mod_eq_zero {a b k : Nat} (ha : a % 2 ^ k = 0) (hb : b < 2 ^ k) : a ||| b = a + b := by
  rw [← Nat.div_mul_cancel (Nat.dvd_of_mod_eq_zero ha), Nat.mul_comm, Nat.two_pow_add_eq_or_of_lt hb]

/-- An opcode and two operands, each below the one before it. -/
theorem opcode_or_two_fields {op a b k : Nat} (hk : k ≤ 32) (ha : a < 2 ^ (32 - k)) (hb : b < 2 ^ k) :
    (op <<< 32) ||| (a <<< k) ||| b = op * 2 ^ 32 + a * 2 ^ k + b := by
  have hsplit : 2 ^ 32 = 2 ^ (32 - k) * 2 ^ k := by rw [← Nat.pow_add, Nat.sub_add_cancel hk]
  have hlt : a * 2 ^ k < 2 ^ 32 := by
    rw [hsplit]; exact Nat.mul_lt_mul_of_pos_right ha (Nat.two_pow_pos k)
  have hmod : (op * 2 ^ 32 + a * 2 ^ k) % 2 ^ k = 0 := by
    rw [hsplit, ← Nat.mul_assoc, ← Nat.add_mul, Nat.mul_mod_left]
  rw [Nat.shiftLeft_eq, Nat.shiftLeft_eq, or_eq_add_of_mod_eq_zero (Nat.mul_mod_left _ _) hlt,
    or_eq_add_of_mod_eq_zero hmod hb]

theorem number_toCall (i : Instr) : i.toCall.number = (encode i).toNat := by
  rw [encode_toNat]
  cases i with
  | init boards pin => exact opcode_or_two_fields (by decide) (by omega) boards.isLt
  | clear => rfl
  | paint pos v => exact opcode_or_two_fields (by decide) (by have := v.toNat_le; omega) pos.isLt
  | fill bar peak => exact opcode_or_two_fields (by decide) peak.isLt bar.isLt
  | flush => rfl
  | sendraw value => exact or_eq_add_of_mod_eq_zero (k := 32) (by decide) value.isLt

/-- The word of an operation whose operands fit. -/
theorem encode_fields (h : c.wellFormed = true) : encode c.fields = BitVec.ofNat 40 c.number := by
  rw [← Call.toCall_fields h, number_toCall, BitVec.ofNat_toNat, BitVec.setWidth_eq, Call.toCall_fields h]

end Encoding

end Sys2Proof

namespace Sys2Proof.Machine

section EncodingStep

variable {s : State} {w : Word} {i : Instr}

/-! ### What a step does with a word, by what the word decodes to (60_exceptions.md R202, R208) -/

theorem step_of_instr (hp : presented s = some w) (hd : decode w = .instr i) : step s = exec i s := by
  simp [step_of_presented hp, hd]

theorem step_of_reservedBits (hp : presented s = some w) (h0 : s.faultCause = 0#3) (hd : decode w = .reservedBits) :
    step s = .next (recordFault .reservedBits w s) := by
  simp [step_of_presented hp, hd, raiseFault_clear h0]

theorem step_of_illegalOpcode (hp : presented s = some w) (h0 : s.faultCause = 0#3)
    (hd : decode w = .illegalOpcode) : step s = .next (recordFault .illegalOpcode w s) := by
  simp [step_of_presented hp, hd, raiseFault_clear h0]

theorem step_of_not_presented (hp : presented s = none) (h0 : s.faultCause = 0#3) : step s = .next s := by
  simp [step, hp, wait, unlessStuck_clear h0]

theorem presented_withFetchWord (s : State) (nbits n : Nat) :
    presented (s.withFetchWord nbits n) = some (BitVec.ofNat 40 (n % 2 ^ nbits)) :=
  presented_placeTableWord s nbits n

/-! ### The assembler (30_encoding.md R85) -/

theorem assemble_eq_some_iff {pin : BitVec 8} {l : AsmLine} :
    l.assemble pin = some w ↔ (l.expand pin).wellFormed = true ∧ encode (l.expand pin).fields = w := by
  simp [AsmLine.assemble, Call.toInstr]

end EncodingStep

/-- Settles O16: `decode_encode`, which needs no well-formedness beyond what the types of `Instr` give. -/
theorem decodeEncodeRoundTrip : Obligations.DecodeEncodeRoundTrip := fun i _ => decode_encode i

/-- Settles O17: the decoder answers a command on that command's word only. -/
theorem oneWordPerCommand : Obligations.OneWordPerCommand := fun _ _ => decode_eq_instr_iff.mp

/-- Settles O18: the opcode tests and each command's decoder, read as arithmetic on the word's number. -/
theorem decodeFollowsTheRule : Obligations.DecodeFollowsTheRule := by
  intro w
  rw [decode, decodeInit_eq, decodeClear_eq, decodePaint_eq, decodeFill_eq, decodeFlush_eq, decodeSendraw_eq]
  simp only [opField_eq_iff, BitVec.reduceToNat]

/-- Settles O19: the illegal words are those with an illegal opcode, and the opcodes are counted by their values. -/
theorem illegalOpcodes : Obligations.IllegalOpcodes := by
  refine ⟨fun w => decode_eq_illegalOpcode_iff, ?_, decode_eq_illegalOpcode_iff.mpr (.inl rfl), fun s w hp h0 hop => ?_⟩
  · rw [← length_illegalOpcodes]
    refine congrArg List.length (List.filter_congr (fun op hop => ?_))
    rw [decide_eq_decide, decode_eq_illegalOpcode_iff, hasIllegalOpcode_ofNat (List.mem_range.mp hop)]
  · exact step_of_illegalOpcode hp h0 (decode_eq_illegalOpcode_iff.mpr hop)

/-- Settles O20: RESERVED_BITS is answered exactly on `HasReservedBit`, which no word of FILL or SENDRAW has. -/
theorem reservedBits : Obligations.ReservedBits := by
  refine ⟨fun w => decode_eq_reservedBits_iff, fun w hop => exists_decode_eq_instr ?_ ?_,
    fun s w => step_of_reservedBits⟩
  · rw [HasIllegalOpcode]; omega
  · rw [HasReservedBit]; omega

/-- Settles O21: a word that matches two rows would decode to commands of two mnemonics. -/
theorem opcodeTableMatchesDecoder : Obligations.OpcodeTableMatchesDecoder := by
  refine ⟨fun r hr w => row_matches_iff hr, opcodeTable_mnemonics_distinct.imp_of_mem ?_⟩
  rintro r r' hr hr' hne w ⟨h, h'⟩
  obtain ⟨i, hi, hm⟩ := (row_matches_iff hr).mp h
  obtain ⟨j, hj, hm'⟩ := (row_matches_iff hr').mp h'
  obtain rfl : i = j := Decoded.instr.inj (hi.symm.trans hj)
  exact hne (hm.symm.trans hm')

/-- Settles O58: an operation that fits is encoded as its number in R85's table, and one that does not is refused. -/
theorem assemblerWords : Obligations.AssemblerWords := by
  intro pin l
  rw [AsmLine.assemble, Call.toInstr]
  generalize l.expand pin = c
  split
  · next h =>
    rw [Option.map_some, encode_fields h]
    cases c <;> rfl
  · rfl

/-- Settles O60: the word is that of the operation's command, whose fields hold the operands as written. -/
theorem assembledLineDecodes : Obligations.AssembledLineDecodes := by
  intro pin l w h
  obtain ⟨hfits, rfl⟩ := assemble_eq_some_iff.mp h
  exact ⟨_, decode_encode _, Call.toCall_fields hfits⟩

/-- Settles O9: the step by what the word on the port decodes to, for a word presented and for a word placed there. -/
theorem stepRunsDecodedCommand : Obligations.StepRunsDecodedCommand :=
  ⟨fun _ _ _ hp hd _ => step_of_instr hp hd,
    fun s nbits n _ h => step_of_instr (presented_withFetchWord s nbits n) (decodeTableWord_eq_some_iff.mp h),
    fun _ => step_of_not_presented⟩

/-- Settles O22: each word is its command's, so it decodes to that command; INIT of 9 boards is a count it refuses. -/
theorem workedEncodings : Obligations.WorkedEncodings := by
  have word : ∀ {i : Instr} {w : Word}, encode i = w → decode w = .instr i := decode_eq_instr_iff.mpr
  have hfail : ∀ s : State, s.faultCause = 0#3 → s.initState = .uninit →
      ∃ t, exec (.init 9#8 5#8) s = .next t ∧ t.responses = s.responses ++ [.fail] :=
    fun s h0 hu => ⟨_, initUnder_of_bad h0 hu (.inr (by decide)), rfl⟩
  exact ⟨rfl, word rfl, rfl, word rfl, hfail, rfl, word rfl, rfl, word rfl, rfl, word rfl, rfl, word rfl, rfl,
    word rfl, rfl, word rfl, rfl, word rfl, decode_eq_reservedBits_iff.mpr (.inr (.inr (.inl (by decide)))),
    decode_eq_illegalOpcode_iff.mpr (.inr (by decide))⟩

/-- Settles O59: each pseudo-instruction expands to the call its full line names. -/
theorem pseudoInstructions : Obligations.PseudoInstructions :=
  fun _ => ⟨rfl, fun _ => rfl, fun _ => rfl⟩

end Sys2Proof.Machine

/-!
The statements on INIT (40_init.md): what it leaves when it succeeds and when it fails, the response that tells which,
and the configuration that no later step changes.
-/

namespace Sys2Proof.Machine

section Init

variable {s t : State} {i : Instr} {b : BitVec 4} {m d : Memory} {boards pin : BitVec 8}

/-! ### What INIT answers in UNINIT (40_init.md R100, R101) -/

theorem exec_init_of_legal (h0 : s.faultCause = 0#3) (hu : s.initState = .uninit) (h1 : 1 ≤ boards.toNat)
    (h8 : boards.toNat ≤ 8) : exec (.init boards pin) s = .next (accept .ok (configure boards pin s)) :=
  initUnder_of_legal h0 hu h1 h8 (by simp [Config.allocMayFail])

theorem exec_init_of_bad (h0 : s.faultCause = 0#3) (hu : s.initState = .uninit)
    (hb : boards.toNat = 0 ∨ 8 < boards.toNat) : exec (.init boards pin) s = .next (accept .fail s) :=
  initUnder_of_bad h0 hu hb

/-- Where allocation may fail, a failed draw ends an INIT of any count as a bad count does (40_init.md R102). -/
theorem initUnder_of_failed_draw {draw : Nat → Config.AllocOutcome} (h0 : s.faultCause = 0#3)
    (hu : s.initState = .uninit) (hd : draw s.ci = .failed) :
    initUnder true draw boards pin s = .next (accept .fail s) := by
  have hfails : true = true ∧ draw s.ci = .failed := ⟨rfl, hd⟩
  rw [initUnder, whenUninit_uninit h0 hu, if_pos hfails, ite_self]

/-- The canvas INIT makes. A count of at most 8 keeps its value in the 4 bits of BC. -/
theorem canvasBytes_configure (s : State) (h8 : boards.toNat ≤ 8) :
    (configure boards pin s).canvasBytes = some (List.replicate (4 * boards.toNat) 0x00#8) := by
  rw [canvasBytes_eq (configure_bc boards pin s) (configure_canvas boards pin s), Memory.writeBelow_nil_zero,
    Memory.bytes_nil, setWidth_toNat_of_le_eight h8]

/-! ### What an INIT's response tells of the state it left (40_init.md R106) -/

theorem uninit_of_init_responded_fail (h : exec (.init boards pin) s = .next t)
    (hf : t.responses = s.responses ++ [.fail]) : t.faultCause = 0#3 ∧ t.initState = .uninit := by
  obtain ⟨h0, ⟨-, rfl⟩ | ⟨hu, rfl⟩ | ⟨-, -, -, rfl⟩⟩ := initUnder_next h
  · simp at hf
  · exact ⟨h0, hu⟩
  · simp at hf

theorem ready_of_init_responded_ok (h : exec (.init boards pin) s = .next t)
    (hok : t.responses = s.responses ++ [.ok]) : t.faultCause = 0#3 ∧ t.initState = .ready := by
  obtain ⟨h0, ⟨-, rfl⟩ | ⟨-, rfl⟩ | ⟨-, -, -, rfl⟩⟩ := initUnder_next h
  · simp at hok
  · simp at hok
  · exact ⟨h0, rfl⟩

/-! ### The configuration (40_init.md R103) -/

/-- A READY block with the same BC, SELPIN and canvas length. -/
def KeepsConfiguration (s t : State) : Prop :=
  t.initState = .ready ∧ t.bc = s.bc ∧ t.selPin = s.selPin ∧
    t.canvasBytes.map List.length = s.canvasBytes.map List.length

theorem keepsConfiguration_self (hr : s.initState = .ready) : KeepsConfiguration s s :=
  ⟨hr, rfl, rfl, rfl⟩

/-- Another canvas in place has as many bytes: the length is BC's alone. -/
theorem length_canvasBytes_setCanvas (hb : s.bc = some b) (hm : s.canvas = some m) :
    (setCanvas d s).canvasBytes.map List.length = s.canvasBytes.map List.length := by
  rw [canvasBytes_eq (s := setCanvas d s) hb rfl, canvasBytes_eq hb hm, Option.map_some, Option.map_some,
    Memory.length_bytes, Memory.length_bytes]

theorem keepsConfiguration_setCanvas (hr : s.initState = .ready) (hb : s.bc = some b) (hm : s.canvas = some m) :
    KeepsConfiguration s (setCanvas d s) :=
  ⟨hr, rfl, rfl, length_canvasBytes_setCanvas hb hm⟩

theorem KeepsConfiguration.transferFrame {src : FrameSource} {bs : List Byte} (h : KeepsConfiguration s t) :
    KeepsConfiguration s (transferFrame src bs t) := by
  rw [transferFrame_eq]; exact h

theorem Effect.keepsConfiguration (h : Effect i s t) (hr : s.initState = .ready) : KeepsConfiguration s t := by
  have hs := keepsConfiguration_self hr
  cases h with
  | reinit | noOp => exact hs
  | notInitialized hu | initFailed hu | initDone _ _ _ hu => simp [hr] at hu
  | drawn m d b _ hb hm => exact keepsConfiguration_setCanvas hr hb hm
  | filled m d b a peak _ hb hm => exact (keepsConfiguration_setCanvas hr hb hm).transferFrame
  | flushed | sent => exact hs.transferFrame

end Init

/-- Settles O27: the state is `accept .ok (configure boards pin s)`, read field by field. -/
theorem initSucceeds : Obligations.InitSucceeds := by
  intro s boards pin h0 hu h1 h8
  exact ⟨_, boards.setWidth 4, exec_init_of_legal h0 hu h1 h8, rfl, rfl, setWidth_toNat_of_le_eight h8, rfl,
    canvasBytes_configure (pin := pin) s h8, rfl, rfl, rfl, rfl, rfl, rfl, rfl, rfl⟩

/-- Settles O28: `accept .fail` leaves what the invariant says of UNINIT. -/
theorem initOfBadCountFails : Obligations.InitOfBadCountFails := by
  intro s boards pin h0 hu hbad
  have hfail := exec_init_of_bad (pin := pin) h0 hu hbad
  refine ⟨hfail, fun hs t ht => ?_⟩
  obtain ⟨hcanvas, hsel, htrace, -, -⟩ := hs
  obtain rfl : accept .fail s = t := Host.Outcome.next.inj (hfail.symm.trans ht)
  obtain ⟨hb, hp, hm⟩ := hcanvas.of_uninit hu
  obtain ⟨hout, -⟩ := htrace.of_uninit hu
  exact ⟨hu, hout, by simpa [hu] using hsel.2, hb, hp, hm⟩

/-- Settles O29: a failed draw and a count of 0 both answer `accept .fail`; another draw changes nothing of INIT. -/
theorem allocationFailure : Obligations.AllocationFailure := by
  intro draw s boards pin h0 hu h1 h8
  have hok := exec_init_of_legal (pin := pin) h0 hu h1 h8
  refine ⟨fun hd => ?_, fun hd => ?_, _, hok, rfl, ?_⟩
  · rw [initUnder_of_failed_draw h0 hu hd, exec_init_of_bad h0 hu (.inl rfl)]
  · rw [initUnder_of_legal h0 hu h1 h8 (by simp [hd]), hok]
  · rw [canvasBytes_accept, canvasBytes_configure s h8, Nat.mul_comm]

/-- Settles O30: FAIL leaves UNINIT, where INIT is evaluated afresh, and OK leaves READY, where it is a fault. -/
theorem initMayBeRetried : Obligations.InitMayBeRetried := by
  intro s t boards pin boards' pin' h
  refine ⟨fun hf => ?_, fun hok => ?_⟩
  · obtain ⟨h0, hu⟩ := uninit_of_init_responded_fail h hf
    exact ⟨fun ⟨h1, h8⟩ => ⟨_, exec_init_of_legal h0 hu h1 h8, rfl, rfl⟩,
      fun hbad => ⟨_, exec_init_of_bad h0 hu hbad, hu, rfl⟩⟩
  · obtain ⟨h0, hr⟩ := ready_of_init_responded_ok h hok
    exact ⟨_, exec_init_of_ready h0 hr, rfl⟩

/-- Settles O31: waiting and a decode fault touch no configuration, and no effect of a command in READY changes it. -/
theorem configurationIsFixed : Obligations.ConfigurationIsFixed := by
  intro s t hr h
  have hs := keepsConfiguration_self hr
  exact step_preserves (P := KeepsConfiguration s) (fun _ _ _ => hs) (fun _ _ _ he => he.keepsConfiguration hr) hs h

end Sys2Proof.Machine

/-!
The statements on the index mapper (41_mapping.md): the two formulas and their ranges, the FILL that the range test
drops, and the padding cells, which the 0-based mapping never reaches.
-/

namespace Sys2Proof.Machine

section Mapping

variable {s : State} {b : BitVec 4} {m : Memory} {p : Nat}

/-! ### The 0-based mapping (41_mapping.md R122, R126, R127) -/

theorem phys0_lt_iff (BC L : Nat) : phys0 L < 32 * BC ↔ L < 30 * BC :=
  decide_eq_true_iff.symm.trans (phys0InRange_iff BC L)

/-- Cell `r` of board `q` (R122). -/
theorem phys0_of_cell {r : Nat} (q : Nat) (hr : r < 30) : phys0 (30 * q + r) = 32 * q + r := by
  rw [phys0]; omega

theorem phys0_mod (L : Nat) : phys0 L % 32 = L % 30 := by
  rw [phys0_eq]; omega

theorem phys0_succ {L : Nat} (h : L % 30 ≠ 29) : phys0 (L + 1) = phys0 L + 1 := by
  have hboard : (L + 1) / 30 = L / 30 := by omega
  rw [phys0, phys0, hboard, Nat.add_right_comm]

theorem phys0_strictMono : StrictMono phys0 := fun L L' h => by
  rw [phys0, phys0]; omega

/-- A position is taken exactly where its cell drives an LED: it is then the one of cell `p mod 32` of board
`p div 32`. -/
theorem exists_phys0_eq_iff (p : Nat) : (∃ L, phys0 L = p) ↔ p % 32 ≤ 29 := by
  constructor
  · rintro ⟨L, rfl⟩
    rw [phys0_mod]; omega
  · intro hp
    exact ⟨30 * (p / 32) + p % 32, by rw [phys0_of_cell _ (by omega), Nat.div_add_mod]⟩

theorem ne_phys0_of_padding (hp : 30 ≤ p % 32) (L : Nat) : p ≠ phys0 L := by
  rintro rfl
  rw [phys0_mod] at hp; omega

/-! ### The 1-based mapping (41_mapping.md R125, R128) -/

theorem adj1_of_pos {bar : Nat} (h : 1 ≤ bar) : adj1 bar = phys0 (bar - 1) + 1 := by
  rw [← adj1_succ, Nat.sub_add_cancel h]

theorem adj1_eq_cell {bar : Nat} (h : 1 ≤ bar) : adj1 bar = 32 * ((bar - 1) / 30) + (bar - 1) % 30 + 1 := by
  rw [adj1_of_pos h, phys0_eq]

theorem adj1_le_iff (BC bar : Nat) : adj1 bar ≤ 32 * BC ↔ bar ≤ 30 * BC :=
  adj1InRange_eq_true_iff_le.symm.trans (adj1InRange_iff BC bar)

theorem adj1_mod_of_pos {bar : Nat} (h : 1 ≤ bar) : 1 ≤ adj1 bar % 32 ∧ adj1 bar % 32 ≤ 30 := by
  rw [adj1_eq_cell h]; omega

theorem adj1_mod_le (bar : Nat) : adj1 bar % 32 ≤ 30 := by
  obtain rfl | h := Nat.eq_zero_or_pos bar
  · simp
  · exact (adj1_mod_of_pos h).2

theorem adj1_mod_eq_zero_iff {bar : Nat} : adj1 bar % 32 = 0 ↔ bar = 0 := by
  refine ⟨fun h => ?_, fun h => by simp [h]⟩
  by_contra hne
  have hpos := (adj1_mod_of_pos (Nat.pos_of_ne_zero hne)).1
  omega

/-- The largest bar in range ends with the last LED, cell 29 of board `BC - 1`. -/
theorem adj1_full {BC : Nat} (h : 1 ≤ BC) : adj1 (30 * BC) = 32 * BC - 2 := by
  rw [adj1_eq_cell (by omega)]; omega

/-- No bar ends with a board's first padding cell. -/
theorem adj1_ne_board_end {BC : Nat} (h : 1 ≤ BC) (bar : Nat) : adj1 bar ≠ 32 * BC - 1 := by
  have := adj1_mod_le bar
  omega

/-- No bar ends with a board's second padding cell: `adj1` is a multiple of 32 for the empty bar only, and 0 there. -/
theorem adj1_ne_board_length {BC : Nat} (h : 1 ≤ BC) (bar : Nat) : adj1 bar ≠ 32 * BC := by
  intro heq
  obtain rfl : bar = 0 := adj1_mod_eq_zero_iff.mp (by omega)
  rw [adj1_zero] at heq; omega

theorem adj1_le_phys0 (bar : Nat) : adj1 bar ≤ phys0 bar := by
  obtain rfl | h := Nat.eq_zero_or_pos bar
  · simp
  · rw [adj1_of_pos h]
    exact phys0_strictMono (Nat.sub_lt h Nat.one_pos)

/-! ### Padding bits (41_mapping.md R126, R132) -/

theorem Memory.bit_nil (p : Nat) : Memory.bit [] p = false := by
  simp [Memory.bit, Memory.unlisted]

theorem Memory.bit_writeBelow_zero (m : Memory) {boards : Nat} (hp : p < 32 * boards) :
    (m.writeBelow (4 * boards) 0x00#8).bit p = false := by
  rw [Memory.bit, Memory.read_writeBelow, if_pos (by omega), BitVec.getLsbD_zero]

theorem Memory.bit_paint_of_padding (m : Memory) (boards L : Nat) (v : Bool) (hp : 30 ≤ p % 32) :
    (m.paint boards L v).bit p = m.bit p := by
  rw [Memory.bit_paint, if_neg (fun h => ne_phys0_of_padding hp L h.2)]

theorem Memory.bit_drawPeak_of_padding (m : Memory) (boards peak : Nat) (hp : 30 ≤ p % 32) :
    (m.drawPeak boards peak).bit p = m.bit p := by
  rw [Memory.bit_drawPeak, decide_eq_false (fun h => ne_phys0_of_padding hp _ h.2.2), Bool.or_false]

/-! ### Canvas bits of the states a command leaves -/

@[simp] theorem canvasBit_recordFault (c : FaultCause) (w : Word) (s : State) (p : Nat) :
    (recordFault c w s).canvasBit p = s.canvasBit p := rfl

@[simp] theorem canvasBit_accept (r : Response) (s : State) (p : Nat) :
    (accept r s).canvasBit p = s.canvasBit p := rfl

@[simp] theorem canvasBit_transferFrame (src : FrameSource) (bs : List Byte) (s : State) (p : Nat) :
    (transferFrame src bs s).canvasBit p = s.canvasBit p := by
  simp [State.canvasBit, State.canvasByte]

theorem canvasBit_eq_true_iff (hb : s.bc = some b) (hm : s.canvas = some m) :
    s.canvasBit p = some true ↔ p < 32 * b.toNat ∧ m.bit p = true := by
  rw [canvasBit_eq hb hm]; simp

theorem canvasBit_setCanvas_eq_true_iff (hb : s.bc = some b) :
    (setCanvas m s).canvasBit p = some true ↔ p < 32 * b.toNat ∧ m.bit p = true :=
  canvasBit_eq_true_iff (s := setCanvas m s) hb rfl

/-- INIT's canvas is dark. -/
theorem canvasBit_configure_ne_true (boards pin : BitVec 8) (s : State) (p : Nat) :
    (configure boards pin s).canvasBit p ≠ some true := by
  rw [Ne, canvasBit_eq_true_iff (configure_bc boards pin s) (configure_canvas boards pin s), Memory.writeBelow_nil_zero,
    Memory.bit_nil]
  simp

end Mapping

/-- Settles O24: a position is its board and cell. -/
theorem zeroBasedMappingFacts : Obligations.ZeroBasedMappingFacts := by
  refine ⟨phys0_lt_iff, fun L => ⟨phys0_mod L, by omega⟩, fun BC L h => by omega, phys0_strictMono,
    exists_phys0_eq_iff, fun L => phys0_succ, fun L h => ?_, fun q => ⟨phys0_of_cell q (by omega), ?_⟩⟩
  · simpa using phys0_of_cell 0 (Nat.lt_succ_of_le h)
  · exact phys0_of_cell (q + 1) (r := 0) (by omega)

/-- Settles O25: a bar of one LED or more ends with one of the cells 0 to 29, so never with a padding cell. -/
theorem oneBasedMappingFacts : Obligations.OneBasedMappingFacts := by
  refine ⟨fun bar h => ⟨adj1_of_pos h, adj1_eq_cell h⟩, adj1_le_iff, fun BC hBC => ⟨adj1_full hBC, fun bar => ?_⟩,
    fun bar => ⟨adj1_mod_eq_zero_iff, adj1_mod_le bar⟩⟩
  have hend := adj1_ne_board_end hBC bar
  have hlength := adj1_ne_board_length hBC bar
  exact ⟨hend, hlength, by omega, fun hle => ⟨by omega, by omega, fun i hi => by omega⟩⟩

/-- Settles O41: INIT and CLEAR leave no bit lit, PAINT and FILL's peak reach no padding cell, and FLUSH and SENDRAW
write no canvas byte; what is left is FILL's bar. -/
theorem onlyABarLightsPadding : Obligations.OnlyABarLightsPadding := by
  intro i s t p h hpad hlit
  cases i with
  | init boards pin =>
    obtain ⟨-, ⟨-, rfl⟩ | ⟨-, rfl⟩ | ⟨-, -, -, rfl⟩⟩ := initUnder_next h
    · exact .inl hlit
    · exact .inl hlit
    · exact absurd hlit (canvasBit_configure_ne_true boards pin s p)
  | clear =>
    obtain ⟨-, ⟨-, rfl⟩ | ⟨-, b, m, hb, -, rfl⟩⟩ := execClear_next h
    · exact .inl hlit
    · rw [canvasBit_accept, canvasBit_setCanvas_eq_true_iff hb] at hlit
      obtain ⟨hp, hbit⟩ := hlit
      simp [Memory.bit_writeBelow_zero m hp] at hbit
  | paint pos v =>
    obtain ⟨-, ⟨-, rfl⟩ | ⟨-, b, m, hb, hm, rfl⟩⟩ := execPaint_next h
    · exact .inl hlit
    · rw [canvasBit_accept, canvasBit_setCanvas_eq_true_iff hb, Memory.bit_paint_of_padding _ _ _ _ hpad] at hlit
      exact .inl ((canvasBit_eq_true_iff hb hm).mpr hlit)
  | fill bar peak =>
    obtain ⟨-, ⟨-, rfl⟩ | ⟨-, b, m, hb, -, ⟨-, rfl⟩ | ⟨-, -, d, rfl, rfl⟩⟩⟩ := execFill_next h
    · exact .inl hlit
    · exact .inl hlit
    · rw [canvasBit_accept, canvasBit_transferFrame, canvasBit_setCanvas_eq_true_iff hb,
        Memory.bit_drawPeak_of_padding _ _ _ hpad] at hlit
      obtain ⟨hp, hbit⟩ := hlit
      rw [Memory.bit_drawBar _ _ _ _ hp] at hbit
      exact .inr ⟨bar, peak, rfl, of_decide_eq_true hbit⟩
  | flush =>
    obtain ⟨-, ⟨-, rfl⟩ | ⟨-, b, m, -, -, rfl⟩⟩ := execFlush_next h
    · exact .inl hlit
    · exact .inl (by simpa using hlit)
  | sendraw value =>
    obtain ⟨-, ⟨-, rfl⟩ | ⟨-, rfl⟩⟩ := execSendraw_next h
    · exact .inl hlit
    · exact .inl (by simpa using hlit)

/-- Settles O23: both definitions are the formulas, `adj1` where the bar is not 0. -/
theorem mapperFormulas : Obligations.MapperFormulas :=
  ⟨fun _ => rfl, adj1_zero, fun _ h => if_neg (Nat.ne_of_gt h)⟩

/-- Settles O26: `phys0` is monotone and bounds `adj1`, so its value at 65535 bounds both. -/
theorem mappedPositionsFitInSeventeenBits : Obligations.MappedPositionsFitInSeventeenBits := by
  refine ⟨fun L => ?_, by decide⟩
  have hphys : phys0 L.toNat ≤ phys0 65535 := phys0_strictMono.monotone (by omega)
  exact ⟨hphys, (adj1_le_phys0 _).trans hphys⟩

/-- Settles O39: the invariant gives the canvas that FILL reads before its range test fails. -/
theorem fillOutOfRangeIsANoOp : Obligations.FillOutOfRangeIsANoOp := by
  rintro s bar peak b ⟨hs, -⟩ hr h0 hb hout
  obtain ⟨-, -, m, -, -, hm, -⟩ := hs.of_ready hr
  exact exec_fill_of_out_of_range h0 hr hb hm (decide_eq_false (Nat.not_le_of_gt hout))

end Sys2Proof.Machine

/-!
The statements on CLEAR, PAINT and FILL (42_canvas_ops.md). What a PAINT and an in-range FILL store is said bit by bit,
on the stored canvas first (`Memory.read_paint_of_ne`, `Memory.bit_filled`) and then on the state that the command
leaves; the obligations are read off these.
-/

namespace Sys2Proof.Machine

section CanvasOps

variable {s : State} {b : BitVec 4} {m : Memory} {boards bar peak p : Nat}

/-! ### The canvas that a READY block holds (10_state.md R36) -/

theorem State.Inv.canvas_of_ready (h : s.Inv) (hr : s.initState = .ready) (hb : s.bc = some b) :
    ∃ m, s.canvas = some m ∧ 1 ≤ b.toNat ∧ m.wf = true ∧ m.Below (4 * b.toNat) := by
  obtain ⟨hcanvas, -⟩ := h
  obtain ⟨b', -, m, hb', -, hm, h1, -, hw, hl⟩ := hcanvas.of_ready hr
  obtain rfl : b = b' := Option.some.inj (hb.symm.trans hb')
  exact ⟨m, hm, h1, hw, hl⟩

/-! ### CLEAR (42_canvas_ops.md R140) -/

theorem canvasByte_setCanvas_zeroed (hb : s.bc = some b) (hm : s.canvas = some m) (i : Nat) :
    (setCanvas (m.writeBelow (4 * b.toNat) 0x00#8) s).canvasByte i = (s.canvasByte i).map (fun _ => 0x00#8) := by
  rw [canvasByte_eq hb hm, canvasByte_eq (s := setCanvas _ s) hb rfl, Memory.read_writeBelow]
  split <;> rfl

/-! ### PAINT (42_canvas_ops.md R141) -/

/-- PAINT writes no byte but that of its position, and out of range none. -/
theorem Memory.read_paint_of_ne {L i : Nat} (v : Bool) (h : ¬(phys0 L < 32 * boards ∧ i = phys0 L / 8)) :
    (m.paint boards L v).read i = m.read i := by
  rw [Memory.paint, phys0InRange]
  split
  · next hr => rw [Memory.bitWrite, Memory.read_write, if_neg (fun hi => h ⟨of_decide_eq_true hr, hi⟩)]
  · rfl

theorem canvasByte_setCanvas_paint_of_ne {L i : Nat} (v : Bool) (hb : s.bc = some b) (hm : s.canvas = some m)
    (h : ¬(phys0 L < 32 * b.toNat ∧ i = phys0 L / 8)) :
    (setCanvas (m.paint b.toNat L v) s).canvasByte i = s.canvasByte i := by
  rw [canvasByte_eq hb hm, canvasByte_eq (s := setCanvas _ s) hb rfl, Memory.read_paint_of_ne v h]

theorem canvasBit_setCanvas_paint (L : Nat) (v : Bool) (hb : s.bc = some b) (hm : s.canvas = some m) :
    (setCanvas (m.paint b.toNat L v) s).canvasBit p =
      if phys0 L < 32 * b.toNat ∧ p = phys0 L then some v else s.canvasBit p := by
  rw [canvasBit_eq hb hm, canvasBit_eq (s := setCanvas _ s) hb rfl, Memory.bit_paint]
  simp only [← phys0_lt_iff]
  by_cases h : phys0 L < 32 * b.toNat ∧ p = phys0 L
  · rw [if_pos h, if_pos h, if_pos (h.2 ▸ h.1)]
  · rw [if_neg h, if_neg h]

/-- PAINT's one bit, with what a further command needs of the state it leaves. -/
theorem exec_paint_canvasBit (L : BitVec 16) (v : Bool) (h0 : s.faultCause = 0#3) (hr : s.initState = .ready)
    (hb : s.bc = some b) (hm : s.canvas = some m) :
    ∃ t m', exec (.paint L v) s = .next t ∧ t.faultCause = 0#3 ∧ t.initState = .ready ∧ t.bc = some b ∧
      t.canvas = some m' ∧
      ∀ p, t.canvasBit p = if phys0 L.toNat < 32 * b.toNat ∧ p = phys0 L.toNat then some v else s.canvasBit p :=
  ⟨_, _, exec_paint_of_ready h0 hr hb hm, h0, hr, hb, rfl, fun _ => canvasBit_setCanvas_paint L.toNat v hb hm⟩

/-! ### Where FILL's bar ends (41_mapping.md R123, R132) -/

/-- The bar covers exactly the LEDs below it. -/
theorem phys0_lt_adj1_iff (L bar : Nat) : phys0 L < adj1 bar ↔ L < bar := by
  obtain rfl | h := Nat.eq_zero_or_pos bar
  · simp
  · rw [adj1_of_pos h, Nat.lt_succ_iff, phys0_strictMono.le_iff_le]; omega

/-- The bar covers a board's padding cells exactly where its last LED is on a later board. -/
theorem padding_lt_adj1_iff {k c : Nat} (bar : Nat) (hc : c = 30 ∨ c = 31) :
    32 * k + c < adj1 bar ↔ k < (bar - 1) / 30 := by
  obtain rfl | h := Nat.eq_zero_or_pos bar
  · simp
  · rw [adj1_eq_cell h]; omega

/-! ### The canvas that an in-range FILL stores (42_canvas_ops.md R143 to R145) -/

/-- FILL's bar and peak, drawn over `m`. -/
def Memory.filled (m : Memory) (boards bar peak : Nat) : Memory :=
  (m.drawBar boards (adj1 bar)).drawPeak boards peak

theorem Memory.wf_filled (boards bar peak : Nat) (h : m.wf = true) : (m.filled boards bar peak).wf = true :=
  Memory.wf_drawPeak _ _ (Memory.wf_drawBar _ _ h)

theorem Memory.below_filled (peak : Nat) (h : m.Below (4 * boards)) (ha : adj1 bar / 8 < 4 * boards) :
    (m.filled boards bar peak).Below (4 * boards) :=
  Memory.below_drawPeak _ _ (Memory.below_drawBar _ _ h ha)

/-- R144, on the stored canvas. -/
theorem Memory.bit_filled (m : Memory) (hp : p < 32 * boards) :
    (m.filled boards bar peak).bit p = decide (p < adj1 bar ∨ (1 ≤ peak ∧ p = phys0 (peak - 1))) := by
  have hrange : p = phys0 (peak - 1) → peak - 1 < 30 * boards := fun h => (phys0_lt_iff _ _).mp (h ▸ hp)
  rw [Memory.filled, Memory.bit_drawPeak, Memory.bit_drawBar _ _ _ _ hp, ← Bool.decide_or]
  refine decide_eq_decide.mpr (or_congr_right ⟨fun ⟨h1, _, he⟩ => ⟨h1, he⟩, fun ⟨h1, he⟩ => ⟨h1, ?_, he⟩⟩)
  have := hrange he
  omega

/-- A peak inside the bar is lit already, so it changes no stored byte (R145). -/
theorem Memory.filled_of_peak_le (hw : m.wf = true) (hl : m.Below (4 * boards)) (ha : adj1 bar / 8 < 4 * boards)
    (hle : peak ≤ bar) : m.filled boards bar peak = m.filled boards bar 0 := by
  refine Memory.ext_of_bits (Memory.wf_filled _ _ _ hw) (Memory.wf_filled _ _ _ hw) (Memory.below_filled _ hl ha)
    (Memory.below_filled _ hl ha) (fun p hp => ?_)
  have hinside : 1 ≤ peak ∧ p = phys0 (peak - 1) → p < adj1 bar := by
    rintro ⟨h1, rfl⟩
    rw [phys0_lt_adj1_iff]; omega
  rw [Memory.bit_filled m hp, Memory.bit_filled m hp]
  exact decide_eq_decide.mpr ⟨fun h => .inl (h.elim id hinside), fun h => h.imp_right (by simp)⟩

/-- The state an in-range FILL leaves, where its canvas is `d`. -/
def fillNext (d : Memory) (boards : Nat) (s : State) : State :=
  accept .none (transferFrame .flush (d.frameBytes boards) (setCanvas d s))

@[simp] theorem fillNext_canvas (d : Memory) (boards : Nat) (s : State) : (fillNext d boards s).canvas = some d := by
  simp [fillNext]

@[simp] theorem fillNext_bc (d : Memory) (boards : Nat) (s : State) : (fillNext d boards s).bc = s.bc := by
  simp [fillNext]

@[simp] theorem fillNext_out (d : Memory) (boards : Nat) (s : State) :
    (fillNext d boards s).out = s.out ++ frameEvents (d.frameBytes boards) := by
  simp [fillNext]

theorem canvasBit_fillNext_filled (hb : s.bc = some b) (hp : p < 32 * b.toNat) :
    (fillNext (m.filled b.toNat bar peak) b.toNat s).canvasBit p =
      some (decide (p < adj1 bar ∨ (1 ≤ peak ∧ p = phys0 (peak - 1)))) := by
  rw [canvasBit_eq (by rw [fillNext_bc, hb]) (fillNext_canvas _ _ s), if_pos hp, Memory.bit_filled m hp]

theorem exec_fill_in_range {bar peak : BitVec 16} (h0 : s.faultCause = 0#3) (hr : s.initState = .ready)
    (hb : s.bc = some b) (hm : s.canvas = some m) (h1 : 1 ≤ b.toNat) (ha : adj1 bar.toNat ≤ 32 * b.toNat) :
    exec (.fill bar peak) s = .next (fillNext (m.filled b.toNat bar.toNat peak.toNat) b.toNat s) :=
  exec_fill_of_ready h0 hr hb hm h1 (adj1InRange_eq_true_iff_le.mpr ha)

/-- FILL's peak is what PAINT of the position before it does, and nothing where there is no peak (R147). -/
theorem drawPeak_by_paint (peak : BitVec 16) (h0 : s.faultCause = 0#3) (hr : s.initState = .ready)
    (hb : s.bc = some b) (hm : s.canvas = some m) :
    ∃ t, (if peak.toNat = 0 then t = s else exec (.paint (peak - 1#16) true) s = .next t) ∧
      t.canvas = some (m.drawPeak b.toNat peak.toNat) ∧ t.out = s.out ∧ t.bc = s.bc ∧ t.initState = s.initState ∧
      t.faultCause = s.faultCause := by
  by_cases hpeak : peak.toNat = 0
  · exact ⟨s, by rw [if_pos hpeak], by rw [hm, Memory.drawPeak, if_pos hpeak], rfl, rfl, rfl, rfl⟩
  · have hpos : (peak - 1#16).toNat = peak.toNat - 1 := by bv_omega
    refine ⟨accept .none (setCanvas (m.paint b.toNat (peak - 1#16).toNat true) s), ?_, ?_, rfl, rfl, rfl, rfl⟩
    · rw [if_neg hpeak]
      exact exec_paint_of_ready h0 hr hb hm
    · rw [accept_canvas, setCanvas_canvas, hpos, Memory.drawPeak, if_neg hpeak]

end CanvasOps

/-- Settles O33: every byte CLEAR finds is written 0. -/
theorem clearZeroesTheCanvas : Obligations.ClearZeroesTheCanvas := by
  rintro s ⟨hs, -⟩ hr h0
  obtain ⟨b, -, m, hb, -, hm, -⟩ := hs.of_ready hr
  exact ⟨_, exec_clear_of_ready h0 hr hb hm, canvasByte_setCanvas_zeroed hb hm, rfl⟩

/-- Settles O34: PAINT's one bit and its one byte, in range and out of range. -/
theorem paintSetsOneBit : Obligations.PaintSetsOneBit := by
  intro s pos v b hs hr h0 hb
  obtain ⟨m, hm, -⟩ := hs.canvas_of_ready hr hb
  exact ⟨_, exec_paint_of_ready h0 hr hb hm, fun _ => canvasBit_setCanvas_paint pos.toNat v hb hm,
    fun _ => canvasByte_setCanvas_paint_of_ne v hb hm, rfl⟩

/-- Settles O35: each of the two commands sets the bit at `phys0(L)` and no other. -/
theorem paintRoundTrip : Obligations.PaintRoundTrip := by
  intro s L b hs hr h0 hb hL
  obtain ⟨m, hm, -⟩ := hs.canvas_of_ready hr hb
  have hrange : phys0 L.toNat < 32 * b.toNat := (phys0_lt_iff _ _).mpr hL
  obtain ⟨t, m', ht, h0', hr', hb', hm', htbit⟩ := exec_paint_canvasBit L true h0 hr hb hm
  obtain ⟨u, -, hu, -, -, -, -, hubit⟩ := exec_paint_canvasBit L false h0' hr' hb' hm'
  refine ⟨t, u, ht, hu, (htbit _).trans (if_pos ⟨hrange, rfl⟩), (hubit _).trans (if_pos ⟨hrange, rfl⟩), fun p hp => ?_⟩
  have hne : ¬(phys0 L.toNat < 32 * b.toNat ∧ p = phys0 L.toNat) := fun h => hp h.2
  rw [hubit, htbit, if_neg hne, if_neg hne]
  exact ⟨rfl, rfl⟩

/-- Settles O36: the clause by position, read at an LED's position and at a padding cell's. -/
theorem fillLightsTheBarAndThePeak : Obligations.FillLightsTheBarAndThePeak := by
  intro s bar peak b hs hr h0 hb ha
  obtain ⟨m, hm, h1, -⟩ := hs.canvas_of_ready hr hb
  refine ⟨_, exec_fill_in_range h0 hr hb hm h1 ha, fun p hp => canvasBit_fillNext_filled hb hp, fun L hL => ?_,
    fun k c hk hc => ?_⟩
  · rw [canvasBit_fillNext_filled hb ((phys0_lt_iff _ _).mpr hL)]
    simp only [phys0_lt_adj1_iff, phys0_strictMono.injective.eq_iff]
  · have hpad : 30 ≤ (32 * k + c) % 32 := by omega
    rw [canvasBit_fillNext_filled hb (by omega)]
    simp only [ne_phys0_of_padding hpad, and_false, or_false, padding_lt_adj1_iff bar.toNat hc]

/-- Settles O37: a peak adds a position to those below the bar's end, one of them already where it is inside the bar. -/
theorem peakNeverClearsABarBit : Obligations.PeakNeverClearsABarBit := by
  intro s bar peak b hs hr h0 hb ha
  obtain ⟨m, hm, h1, hw, hl⟩ := hs.canvas_of_ready hr hb
  refine ⟨_, _, exec_fill_in_range h0 hr hb hm h1 ha, exec_fill_in_range h0 hr hb hm h1 ha, fun p hlit => ?_,
    fun hle => ?_⟩
  · have hp : p < 32 * b.toNat :=
      ((canvasBit_eq_true_iff (by rw [fillNext_bc, hb]) (fillNext_canvas _ _ s)).mp hlit).1
    rw [canvasBit_fillNext_filled hb hp, Option.some_inj, decide_eq_true_iff] at hlit ⊢
    exact .inl (hlit.resolve_right (by simp))
  · have hend : adj1 bar.toNat / 8 < 4 * b.toNat := adj1_div_lt h1 (adj1InRange_eq_true_iff_le.mpr ha)
    exact congrArg (fillNext · b.toNat s) (Memory.filled_of_peak_le hw hl hend hle)

/-- Settles O38: FILL's frame is the bytes of the canvas it stored, in reverse. -/
theorem fillSendsOneFrame : Obligations.FillSendsOneFrame := by
  intro s bar peak b hs hr h0 hb ha
  obtain ⟨m, hm, h1, -⟩ := hs.canvas_of_ready hr hb
  refine ⟨_, _, exec_fill_in_range h0 hr hb hm h1 ha, canvasBytes_eq (by rw [fillNext_bc, hb]) (fillNext_canvas _ _ s),
    Memory.length_bytes _ _, ?_⟩
  rw [fillNext, transferFrame_eq]
  rfl

/-- Settles O40: CLEAR and the bar bytes are FILL's bar, PAINT is its peak, and FLUSH sends the same canvas. -/
theorem fillIsClearBarPaintFlush : Obligations.FillIsClearBarPaintFlush := by
  intro s bar peak b hs hr h0 hb ha
  obtain ⟨m, hm, h1, -⟩ := hs.canvas_of_ready hr hb
  obtain ⟨s3, hs3, hcanvas, hout, hbc, hinit, hfault⟩ := drawPeak_by_paint peak h0 hr hb rfl
    (s := accept .none (setCanvas (m.drawBar b.toNat (adj1 bar.toNat)) s))
  refine ⟨_, _, _, _, s3, _, exec_fill_in_range h0 hr hb hm h1 ha, exec_clear_of_ready h0 hr hb hm, rfl, rfl, hs3,
    exec_flush_of_ready (hfault.trans h0) (hinit.trans hr) (hbc.trans hb) hcanvas, ?_, ?_⟩
  · rw [fillNext_canvas, accept_canvas, transferFrame_canvas, hcanvas, Memory.filled]
  · rw [fillNext_out, accept_out, transferFrame_out, hout, Memory.filled, accept_out, setCanvas_out]

end Sys2Proof.Machine

/-!
The statements on the serializer (43_serializer.md). A frame's bytes are the canvas number's, most significant first
(`numberBytes_bytesNumber`, `rawBytes_eq_numberBytes`). What the boards hold and show is said once of the state that
FLUSH's frame leaves (`flushNext`), which is also how an in-range FILL ends. That a placement which shows every canvas
meets R185's constraint is read off one-board canvases with a single position lit.
-/

namespace Sys2Proof.Machine

section Serializer

variable {s : State} {b : BitVec 4} {m : Memory} {bs : List Byte} {order : Config.BitOrder} {place : Placement}

/-! ### The bytes of a frame (43_serializer.md R170, R172, R176) -/

/-- A number's bytes, most significant first, are the bytes it was read from, last byte first. -/
theorem numberBytes_bytesNumber (bs : List Byte) : numberBytes bs.length (bytesNumber bs) = bs.reverse := by
  refine congrArg List.reverse (List.ext_getElem (by simp) fun i hi hi' => ?_)
  have hbyte := bytesNumber_div_mod bs i hi'
  rw [pow_256_eq_two_pow] at hbyte
  simp [← BitVec.toNat_inj, hbyte, hi']

theorem rawBytes_eq_numberBytes (v : BitVec 32) : rawBytes v = numberBytes 4 v.toNat := by
  have hbyte : ∀ k, v.extractLsb' k 8 = BitVec.ofNat 8 (v.toNat / 2 ^ k) := fun k => by
    rw [BitVec.extractLsb', Nat.shiftRight_eq_div_pow]
  simp [rawBytes, numberBytes, hbyte, List.range_succ]

/-- Byte `j` of a frame is the canvas byte as far from the end. -/
theorem getElem?_frameBytes (hb : s.bc = some b) (hm : s.canvas = some m) {j : Nat} (hj : j < 4 * b.toNat) :
    (m.frameBytes b.toNat)[j]? = s.canvasByte (4 * b.toNat - 1 - j) := by
  rw [Memory.frameBytes, List.getElem?_reverse (by simpa using hj), Memory.length_bytes, Memory.getElem?_bytes,
    canvasByte_eq hb hm]

/-! ### The state FLUSH's frame leaves (43_serializer.md R170, R185) -/

/-- The state after a FLUSH frame of the canvas `m` of `boards` boards. -/
def flushNext (m : Memory) (boards : Nat) (s : State) : State :=
  accept .none (transferFrame .flush (m.frameBytes boards) s)

theorem exec_flush_eq_flushNext (h0 : s.faultCause = 0#3) (hr : s.initState = .ready) (hb : s.bc = some b)
    (hm : s.canvas = some m) : exec .flush s = .next (flushNext m b.toNat s) :=
  exec_flush_of_ready h0 hr hb hm

theorem flushNext_out (m : Memory) (boards : Nat) (s : State) :
    (flushNext m boards s).out = s.out ++ frameEvents (m.frameBytes boards) := by
  simp [flushNext]

theorem flushNext_bc (m : Memory) (boards : Nat) (s : State) : (flushNext m boards s).bc = s.bc := by
  simp [flushNext]

theorem canvasByte_flushNext (m : Memory) (boards : Nat) (s : State) (i : Nat) :
    (flushNext m boards s).canvasByte i = s.canvasByte i := by
  simp [flushNext, State.canvasByte]

theorem canvasBytes_flushNext (m : Memory) (boards : Nat) (s : State) :
    (flushNext m boards s).canvasBytes = s.canvasBytes := by
  simp [flushNext]

theorem canvasBit_flushNext (m : Memory) (boards : Nat) (s : State) (p : Nat) :
    (flushNext m boards s).canvasBit p = s.canvasBit p := by
  simp [flushNext]

/-- FLUSH and an in-range FILL both end with the FLUSH frame of the canvas then in place, in a READY state whose trace
is still whole frames. -/
theorem exec_ends_in_flushNext {i : Instr} (hs : s.Inv) (hr : s.initState = .ready) (h0 : s.faultCause = 0#3)
    (hb : s.bc = some b)
    (hi : i = .flush ∨ ∃ bar peak, i = .fill bar peak ∧ adj1 bar.toNat ≤ 32 * b.toNat) :
    ∃ u m, exec i s = .next (flushNext m b.toNat u) ∧ u.TraceInv ∧ u.initState = .ready ∧ u.bc = some b ∧
      u.canvas = some m := by
  obtain ⟨m, hm, h1, -⟩ := hs.canvas_of_ready hr hb
  obtain ⟨-, -, htrace, -⟩ := hs
  obtain rfl | ⟨bar, peak, rfl, ha⟩ := hi
  · exact ⟨s, m, exec_flush_eq_flushNext h0 hr hb hm, htrace, hr, hb, hm⟩
  · exact ⟨setCanvas _ s, _, exec_fill_in_range h0 hr hb hm h1 ha, htrace, hr, hb, rfl⟩

/-- The frame fills the chain, so board `k`'s registers and latches hold canvas bytes `4k` to `4k + 3`. -/
theorem chain_flushNext (hs : s.TraceInv) (hr : s.initState = .ready) (hb : s.bc = some b) :
    (flushNext m b.toNat s).chain =
      some ⟨none, (m.bytes (4 * b.toNat)).map some, (m.bytes (4 * b.toNat)).map some⟩ := by
  have hchain := chain_of_frame hs hr hb (flushNext_bc m b.toNat s) (flushNext_out m b.toNat s) (by simp)
  rwa [Memory.frameBytes, List.reverse_reverse] at hchain

theorem display_flushNext (hs : s.TraceInv) (hr : s.initState = .ready) (hb : s.bc = some b) :
    (flushNext m b.toNat s).display = some (m.bytes (4 * b.toNat)) := by
  rw [State.display, chain_flushNext hs hr hb, Option.bind_some, settled_map_some]

theorem cellShown_flushNext (hs : s.TraceInv) (hr : s.initState = .ready) (hb : s.bc = some b)
    (hm : s.canvas = some m) (hf : place.Fits order) {k c : Nat} (hk : k < b.toNat) (hc : c < 30) :
    (flushNext m b.toNat s).cellShown order place k c = (flushNext m b.toNat s).canvasBit (32 * k + c) := by
  rw [State.cellShown, chain_flushNext hs hr hb, Option.bind_some, cell_of_latched hf rfl hc, Memory.getElem?_bytes,
    if_pos (by omega), canvasBit_flushNext, canvasBit_eq hb hm, if_pos (by omega)]
  rfl

/-- The LED at `L` is cell `L mod 30` of board `L div 30`. -/
theorem ledShown_flushNext (hs : s.TraceInv) (hr : s.initState = .ready) (hb : s.bc = some b)
    (hm : s.canvas = some m) (hf : place.Fits order) {L : Nat} (hL : L < 30 * b.toNat) :
    (flushNext m b.toNat s).ledShown order place L = (flushNext m b.toNat s).canvasBit (phys0 L) := by
  have hcell : phys0 L % 32 < 30 := by rw [phys0_mod]; omega
  have hboard : phys0 L / 32 < b.toNat := by have := (phys0_lt_iff b.toNat L).mpr hL; omega
  rw [State.ledShown, cellShown_flushNext hs hr hb hm hf hboard hcell, Nat.div_add_mod]

/-! ### Which position a cell shows, for any placement (43_serializer.md R185) -/

/-- The physical position, within its board, of the serial bit counted as `q`. -/
def serialPosition (order : Config.BitOrder) (q : Nat) : Nat := 8 * (q / 8) + sentBit order (q % 8)

theorem sentBit_lt (order : Config.BitOrder) {n : Nat} (h : n < 8) : sentBit order n < 8 := by
  cases order <;> (simp only [sentBit]; omega)

theorem sentBit_sentBit (order : Config.BitOrder) {n : Nat} (h : n < 8) : sentBit order (sentBit order n) = n := by
  cases order with
  | msbFirst => simp only [sentBit]; omega
  | lsbFirst => rfl

theorem serialPosition_div (order : Config.BitOrder) (q : Nat) : serialPosition order q / 8 = q / 8 := by
  have hlt := sentBit_lt order (Nat.mod_lt q (by decide : 0 < 8))
  rw [serialPosition]; omega

theorem serialPosition_mod (order : Config.BitOrder) (q : Nat) :
    serialPosition order q % 8 = sentBit order (q % 8) := by
  have hlt := sentBit_lt order (Nat.mod_lt q (by decide : 0 < 8))
  rw [serialPosition]; omega

/-- Either bit order is its own inverse. -/
theorem serialPosition_serialPosition (order : Config.BitOrder) (q : Nat) :
    serialPosition order (serialPosition order q) = q := by
  rw [serialPosition, serialPosition_div, serialPosition_mod, sentBit_sentBit order (Nat.mod_lt q (by decide)),
    Nat.div_add_mod]

theorem mem_landing {c q : Nat} : q ∈ landing place c ↔ q < 32 ∧ place (q / 8) (q % 8) = c := by
  simp [landing]

/-- Where a cell of board 0 shows a bit, that of one serial bit lands there, and the cell shows that bit's position. -/
theorem landing_of_cell_eq_some {ch : Chain} (hl : ch.latch = (m.bytes 4).map some) {c : Nat} {v : Bool}
    (h : ch.cell order place 0 c = some v) :
    ∃ q, landing place c = [q] ∧ m.bit (serialPosition order q) = v := by
  rw [Chain.cell] at h
  split at h
  · next q hq =>
    have hq32 : q < 32 := (mem_landing.mp (hq ▸ List.mem_singleton_self q)).1
    rw [hl, List.getElem?_map, Nat.mul_zero, Nat.zero_add, Memory.getElem?_bytes, if_pos (by omega)] at h
    have hbit := (serialBits_getElem? order (m.read (q / 8)) (Nat.mod_lt q (by decide))).symm.trans h
    exact ⟨q, hq, by rw [Memory.bit, serialPosition_div, serialPosition_mod, Option.some.inj hbit]⟩
  · cases h

/-- A placement by which each LED's cell takes the one serial bit of its position meets the constraint. -/
theorem fits_of_landing
    (h : ∀ c, c < 30 → ∃ q, landing place c = [q] ∧ serialPosition order q = c) : place.Fits order := by
  have hland : ∀ c, c < 30 → landing place c = [serialPosition order c] := fun c hc => by
    obtain ⟨q, hq, rfl⟩ := h c hc
    rw [hq, serialPosition_serialPosition]
  intro j hj n hn
  have hj8 : (8 * j + n) / 8 = j := by omega
  have hn8 : (8 * j + n) % 8 = n := by omega
  have hpos : serialPosition order (8 * j + n) = 8 * j + sentBit order n := by rw [serialPosition, hj8, hn8]
  rw [← hpos]
  split
  · next hled =>
    have hmem : 8 * j + n ∈ landing place (serialPosition order (8 * j + n)) := by
      rw [hland _ hled, serialPosition_serialPosition]; exact List.mem_singleton_self _
    simpa only [hj8, hn8] using (mem_landing.mp hmem).2
  · next hpad =>
    by_contra hlow
    have hmem : 8 * j + n ∈ landing place (place j n) := mem_landing.mpr ⟨by omega, by rw [hj8, hn8]⟩
    rw [hland _ (Nat.lt_of_not_le hlow), List.mem_singleton] at hmem
    rw [hmem, serialPosition_serialPosition] at hpad
    exact hlow (Nat.le_of_not_lt hpad)

/-! ### One board with one position lit -/

/-- A canvas with position `p` lit and no other. -/
def Memory.lit (p : Nat) : Memory := Memory.bitWrite [] p true

theorem Memory.bit_lit (p q : Nat) : (Memory.lit p).bit q = decide (q = p) := by
  rw [Memory.lit, Memory.bit_bitWrite, Memory.bit_nil]
  split <;> simp [*]

/-- A block of one board, configured from power-on, with canvas `m`. -/
def oneBoard (m : Memory) : State := setCanvas m (configure 1#8 0#8 State.reset)

theorem oneBoard_bc (m : Memory) : (oneBoard m).bc = some 1#4 := rfl

theorem inv_oneBoard_lit {p : Nat} (hp : p < 32) : (oneBoard (Memory.lit p)).Inv := by
  have htrace : State.reset.TraceInv := ⟨rfl, rfl⟩
  have hcanvas := canvasInv_configure State.reset (boards := 1#8) (pin := 0#8) (by decide) (by decide)
  refine ⟨hcanvas.setCanvas rfl rfl (Memory.wf_bitWrite p true rfl) (Memory.below_write _ ?_ ?_), selInv_configure,
    htrace.configure rfl, faultInv_of_clear rfl rfl, rfl, Nat.zero_le _⟩
  · simp [Memory.Below]
  · show p / 8 < 4
    omega

/-- A FLUSH that shows position `c` in cell `c`, with that position lit alone, tells which serial bit lands there. -/
theorem landing_of_cellShown_oneBoard {c : Nat} (hc : c < 30)
    (h : (flushNext (Memory.lit c) (1#4).toNat (oneBoard (Memory.lit c))).cellShown order place 0 c =
      (flushNext (Memory.lit c) (1#4).toNat (oneBoard (Memory.lit c))).canvasBit c) :
    ∃ q, landing place c = [q] ∧ serialPosition order q = c := by
  obtain ⟨-, -, htrace, -⟩ := inv_oneBoard_lit (p := c) (by omega)
  have hlit : (flushNext (Memory.lit c) (1#4).toNat (oneBoard (Memory.lit c))).canvasBit c = some true := by
    rw [canvasBit_flushNext, canvasBit_eq (oneBoard_bc _) rfl, Memory.bit_lit,
      if_pos (Nat.lt_trans hc (by decide)), decide_eq_true rfl]
  rw [hlit, State.cellShown, chain_flushNext htrace rfl (oneBoard_bc _), Option.bind_some] at h
  obtain ⟨q, hq, hbit⟩ := landing_of_cell_eq_some (m := Memory.lit c) rfl h
  rw [Memory.bit_lit] at hbit
  exact ⟨q, hq, of_decide_eq_true hbit⟩

end Serializer

/-- Settles O44: FLUSH's frame is the bytes of the canvas the invariant gives, in reverse. -/
theorem flushSendsTheCanvas : Obligations.FlushSendsTheCanvas := by
  rintro s ⟨hs, -⟩ hr h0
  obtain ⟨b, -, m, hb, -, hm, -⟩ := hs.of_ready hr
  refine ⟨_, canvasBytes_eq hb hm, ?_⟩
  rw [exec_flush_of_ready h0 hr hb hm, transferFrame_eq]
  rfl

/-- Settles O45: each order is the reversal of the canvas bytes, read by index, by board and as a number. -/
theorem flushFrameOrder : Obligations.FlushFrameOrder := by
  intro s b hs hr h0 hb
  obtain ⟨m, hm, -⟩ := hs.canvas_of_ready hr hb
  refine ⟨_, m.frameBytes b.toNat, m.bytes (4 * b.toNat), exec_flush_eq_flushNext h0 hr hb hm,
    canvasByte_flushNext m b.toNat s, canvasBytes_eq hb hm, flushNext_out m b.toNat s, Memory.length_frameBytes m _,
    fun j => getElem?_frameBytes hb hm, fun k c hk hc => ?_, ?_⟩
  · rw [getElem?_frameBytes hb hm (by omega)]
    congr 1
    omega
  · simpa [Memory.frameBytes] using (numberBytes_bytesNumber (m.bytes (4 * b.toNat))).symm

/-- Settles O47: SENDRAW's frame is the four bytes of its value's number. -/
theorem sendrawSendsFourBytes : Obligations.SendrawSendsFourBytes := by
  intro s v hr h0
  rw [exec_sendraw_of_ready h0 hr, transferFrame_eq, rawBytes_eq_numberBytes]
  simp [accept, frameEvents, numberBytes, List.range_succ]

/-- Settles O48: SENDRAW reads no board count, and its frame has four bytes. -/
theorem sendrawAtEveryBoardCount : Obligations.SendrawAtEveryBoardCount := by
  rintro s v b ⟨hs, -⟩ hr h0 hb
  obtain ⟨b', -, -, hb', -, -, h1, h8, -⟩ := hs.of_ready hr
  obtain rfl : b = b' := Option.some.inj (hb.symm.trans hb')
  refine ⟨h1, h8, _, exec_sendraw_of_ready h0 hr, by simpa using h0, ?_⟩
  rw [accept_out, transferFrame_out, txCount_append, txCount_frame]
  rfl

/-- Settles O49: the word is the canvas number, and both frames are that number's bytes. -/
theorem sendrawMatchesFlushOnOneBoard : Obligations.SendrawMatchesFlushOnOneBoard := by
  intro s c0 c1 c2 c3 v hs hr h0 hb hbs hv
  obtain ⟨m, hm, hbytes⟩ := canvas_of_canvasBytes hb hbs
  have hnumber : v.toNat = bytesNumber [c0, c1, c2, c3] := by
    rw [hv]
    simp only [bytesNumber]
    omega
  have hframe : m.frameBytes (1#4).toNat = rawBytes v := by
    rw [rawBytes_eq_numberBytes, hnumber, Memory.frameBytes, ← hbytes]
    exact (numberBytes_bytesNumber _).symm
  refine ⟨⟨_, _, exec_flush_of_ready h0 hr hb hm, exec_sendraw_of_ready h0 hr, ?_⟩, fun p hp => ?_⟩
  · rw [accept_out, accept_out, transferFrame_out, transferFrame_out, hframe]
  · obtain ⟨-, -, hbit⟩ := canvasIsALittleEndianNumber s 1#4 _ hb hbs
    rw [hbit p hp, BitVec.getLsbD, hnumber]

/-- Settles O54: both commands end with FLUSH's frame, which fills the chain with the canvas bytes. -/
theorem frameShowsTheCanvas : Obligations.FrameShowsTheCanvas := by
  intro i s b hs hr h0 hb hi
  obtain ⟨u, m, hexec, htrace, hur, hub, hum⟩ := exec_ends_in_flushNext hs hr h0 hb hi
  obtain ⟨-, hflushed⟩ := flushed_of_frameBytes hub hum htrace.frameSources_length rfl
  exact ⟨_, _, m.bytes (4 * b.toNat), hexec, hflushed, chain_flushNext htrace hur hub,
    (canvasBytes_flushNext m b.toNat u).trans (canvasBytes_eq hub hum), Memory.length_bytes _ _, rfl, rfl,
    display_flushNext htrace hur hub, fun _ _ hf =>
      ⟨fun _ _ => cellShown_flushNext htrace hur hub hum hf, fun _ => ledShown_flushNext htrace hur hub hum hf⟩⟩

/-- Settles O55: one way by the cells of a FLUSH frame, the other by the FLUSH of one board with one position lit. -/
theorem placementIsSpecifiedByTheResult : Obligations.PlacementIsSpecifiedByTheResult := by
  intro order place
  constructor
  · intro hf s t b hs hr hb h k c hk hc
    obtain ⟨m, hm, -⟩ := hs.canvas_of_ready hr hb
    obtain ⟨-, -, htrace, -⟩ := hs
    obtain rfl : flushNext m b.toNat s = t :=
      Host.Outcome.next.inj ((exec_flush_eq_flushNext (exec_effect h).1 hr hb hm).symm.trans h)
    exact cellShown_flushNext htrace hr hb hm hf hk hc
  · intro hshown
    refine fits_of_landing fun c hc => landing_of_cellShown_oneBoard hc ?_
    have hcell := hshown _ _ 1#4 (inv_oneBoard_lit (p := c) (by omega)) rfl (oneBoard_bc _)
      (exec_flush_eq_flushNext rfl rfl (oneBoard_bc _) rfl) 0 c (by decide) hc
    rwa [Nat.mul_zero, Nat.zero_add] at hcell

end Sys2Proof.Machine

/-!
The statements on the faults (60_exceptions.md). What a command answers is said once for each of its gates' outcomes:
stuck (`exec_of_stuck`), the fault of the wrong STATE (`exec_of_uninit`, `exec_init_of_ready`), or the command run and
nothing raised (`exec_init_of_uninit`, `exec_of_ready`). A step is these and the two decode faults, and a run is an
induction on the words left.
-/

namespace Sys2Proof.Machine

section Exceptions

variable {s t : State} {i : Instr} {w : Word}

/-! ### A faulted block (60_exceptions.md R202, R211) -/

theorem exec_of_stuck (i : Instr) (h : s.faultCause ≠ 0#3) : exec i s = .fault (.stuck s.faultCause) := by
  cases i with
  | init boards pin => exact whenUninit_stuck h
  | clear | paint | fill | flush | sendraw => exact whenReady_stuck h

theorem step_of_stuck (h : s.faultCause ≠ 0#3) : step s = .fault (.stuck s.faultCause) := by
  cases hp : presented s with
  | none => rw [step, hp]; exact unlessStuck_stuck h
  | some w =>
    rw [step_of_presented hp]
    cases decode w with
    | instr i => exact exec_of_stuck i h
    | illegalOpcode | reservedBits => exact unlessStuck_stuck h

/-! ### What a command answers in each STATE (60_exceptions.md R206 to R208) -/

theorem exec_of_uninit (hi : ∀ boards pin, i ≠ .init boards pin) (h0 : s.faultCause = 0#3)
    (hu : s.initState = .uninit) : exec i s = .next (recordFault .notInitialized (encode i) s) := by
  cases i with
  | init boards pin => exact absurd rfl (hi boards pin)
  | clear | paint | fill | flush | sendraw => exact whenReady_uninit h0 hu

theorem exec_init_of_uninit (boards pin : BitVec 8) (h0 : s.faultCause = 0#3) (hu : s.initState = .uninit) :
    ∃ t, exec (.init boards pin) s = .next t ∧ t.faultCause = 0#3 := by
  by_cases hlegal : 1 ≤ boards.toNat ∧ boards.toNat ≤ 8
  · exact ⟨_, exec_init_of_legal h0 hu hlegal.1 hlegal.2, h0⟩
  · exact ⟨_, exec_init_of_bad h0 hu (by omega), h0⟩

/-- The registers a command reads exist in READY, and an in-range FILL stays inside the canvas (20_memory.md R66). -/
theorem exec_of_ready (hs : s.CanvasInv) (hi : ∀ boards pin, i ≠ .init boards pin) (h0 : s.faultCause = 0#3)
    (hr : s.initState = .ready) : ∃ t, exec i s = .next t ∧ t.faultCause = 0#3 := by
  obtain ⟨b, -, m, hb, -, hm, h1, -⟩ := hs.of_ready hr
  cases i with
  | init boards pin => exact absurd rfl (hi boards pin)
  | clear => exact ⟨_, exec_clear_of_ready h0 hr hb hm, h0⟩
  | paint pos v => exact ⟨_, exec_paint_of_ready h0 hr hb hm, h0⟩
  | fill bar peak =>
    cases ha : adj1InRange b.toNat bar.toNat with
    | false => exact ⟨_, exec_fill_of_out_of_range h0 hr hb hm ha, h0⟩
    | true => exact ⟨_, exec_fill_of_ready h0 hr hb hm h1 ha, by simpa using h0⟩
  | flush => exact ⟨_, exec_flush_of_ready h0 hr hb hm, by simpa using h0⟩
  | sendraw value => exact ⟨_, exec_sendraw_of_ready h0 hr, by simpa using h0⟩

/-- A command runs and raises nothing where it is INIT exactly in UNINIT. -/
theorem exec_runs (hs : s.CanvasInv) (hgate : (∃ boards pin, i = .init boards pin) ↔ s.initState = .uninit)
    (h0 : s.faultCause = 0#3) : ∃ t, exec i s = .next t ∧ t.faultCause = 0#3 := by
  cases hst : s.initState with
  | uninit =>
    obtain ⟨boards, pin, rfl⟩ := hgate.mpr hst
    exact exec_init_of_uninit boards pin h0 hst
  | ready => exact exec_of_ready hs (fun boards pin hi => by simpa [hst] using hgate.mp ⟨boards, pin, hi⟩) h0 hst

/-- With no fault recorded every command has a next state: its own, or the one with its fault. -/
theorem exec_has_next (i : Instr) (hs : s.CanvasInv) (h0 : s.faultCause = 0#3) : ∃ t, exec i s = .next t := by
  by_cases hi : ∃ boards pin, i = .init boards pin
  · obtain ⟨boards, pin, rfl⟩ := hi
    cases hst : s.initState with
    | uninit => exact (exec_init_of_uninit boards pin h0 hst).imp fun _ => And.left
    | ready => exact ⟨_, exec_init_of_ready h0 hst⟩
  · have hi : ∀ boards pin, i ≠ .init boards pin := fun boards pin h => hi ⟨boards, pin, h⟩
    cases hst : s.initState with
    | uninit => exact ⟨_, exec_of_uninit hi h0 hst⟩
    | ready => exact (exec_of_ready hs hi h0 hst).imp fun _ => And.left

theorem step_has_next (hs : s.Inv) (h0 : s.faultCause = 0#3) : ∃ t, step s = .next t := by
  obtain ⟨hcanvas, -⟩ := hs
  cases hp : presented s with
  | none => exact ⟨s, step_of_not_presented hp h0⟩
  | some w =>
    cases hd : decode w with
    | instr i => rw [step_of_instr hp hd]; exact exec_has_next i hcanvas h0
    | illegalOpcode => exact ⟨_, step_of_illegalOpcode hp h0 hd⟩
    | reservedBits => exact ⟨_, step_of_reservedBits hp h0 hd⟩

/-! ### What a step does with a command's word that STATE forbids (60_exceptions.md R206, R207) -/

theorem opcode_eq_one_iff_of_decode (h : decode w = .instr i) :
    w.toNat / 2 ^ 32 = 1 ↔ ∃ boards pin, i = .init boards pin := by
  have hop : opField w = 0x01#8 ↔ w.toNat / 2 ^ 32 = 1 := opField_eq_iff w 0x01#8
  rw [← hop, ← decode_eq_instr_iff.mp h, opField_encode]
  cases i <;> simp [Instr.opcode]

theorem step_of_init_of_ready {boards pin : BitVec 8} (hp : presented s = some w)
    (hd : decode w = .instr (.init boards pin)) (h0 : s.faultCause = 0#3) (hr : s.initState = .ready) :
    step s = .next (recordFault .reinit w s) := by
  rw [step_of_instr hp hd, exec_init_of_ready h0 hr, decode_eq_instr_iff.mp hd]

theorem step_of_uninit (hp : presented s = some w) (hd : decode w = .instr i)
    (hi : ∀ boards pin, i ≠ .init boards pin) (h0 : s.faultCause = 0#3) (hu : s.initState = .uninit) :
    step s = .next (recordFault .notInitialized w s) := by
  rw [step_of_instr hp hd, exec_of_uninit hi h0 hu, decode_eq_instr_iff.mp hd]

/-! ### What a fault leaves (60_exceptions.md R202) -/

/-- Of a command's effects only the two faults leave one recorded. -/
theorem Effect.eq_recordFault (h : Effect i s t) (h0 : s.faultCause = 0#3) (ht : t.faultCause ≠ 0#3) :
    ∃ c, t = recordFault c (encode i) s := by
  cases h with
  | reinit => exact ⟨.reinit, rfl⟩
  | notInitialized => exact ⟨.notInitialized, rfl⟩
  | initFailed | initDone | noOp | drawn => exact absurd h0 ht
  | filled | flushed | sent => exact absurd (by simpa using h0) ht

/-- A step that leaves a fault recorded has written the fault register, with the word on the port, and nothing else. -/
theorem step_eq_recordFault (hp : presented s = some w) (h : step s = .next t) (ht : t.faultCause ≠ 0#3) :
    s.faultCause = 0#3 ∧ ∃ c, t = recordFault c w s := by
  obtain ⟨h0, ⟨hn, -⟩ | ⟨w', hw, hcase⟩⟩ := step_next h
  · simp [hn] at hp
  · obtain rfl : w = w' := Option.some.inj (hp.symm.trans hw)
    refine ⟨h0, ?_⟩
    obtain ⟨-, ht'⟩ | ⟨-, ht'⟩ | ⟨i, hd, hexec⟩ := hcase
    · exact ⟨.illegalOpcode, ht'⟩
    · exact ⟨.reservedBits, ht'⟩
    · rw [← decode_eq_instr_iff.mp hd]
      exact (exec_effect hexec).2.eq_recordFault h0 ht

theorem State.stuckEnd_iff : s.stuckEnd = true ↔ s.faultCause ≠ 0#3 := decide_eq_true_iff

theorem State.complete_iff : s.complete = true ↔ s.faultCause = 0#3 ∧ presented s = none := by
  simp [State.complete]

/-! ### Runs (60_exceptions.md R219) -/

/-- A step takes the word on the port off the words left, or records a fault. -/
theorem step_takes_word (hp : presented s = some w) (h : step s = .next t) :
    t.faultCause ≠ 0#3 ∨ (t.program = s.program ∧ t.ci = s.ci + 1) := by
  obtain ⟨-, ⟨hn, -⟩ | ⟨-, -, ⟨-, rfl⟩ | ⟨-, rfl⟩ | ⟨i, -, hexec⟩⟩⟩ := step_next h
  · simp [hn] at hp
  · exact .inl (recordFault_faultCause_ne_zero _ _ _)
  · exact .inl (recordFault_faultCause_ne_zero _ _ _)
  · obtain ⟨hprog, ⟨-, hci, -⟩ | ⟨hfault, -⟩⟩ := exec_advancesPort hexec
    · exact .inr ⟨hprog, hci⟩
    · exact .inl hfault

theorem ended_or_presented (s : State) :
    (s.complete = true ∨ s.stuckEnd = true) ∨ (s.faultCause = 0#3 ∧ ∃ w, presented s = some w) := by
  by_cases h0 : s.faultCause = 0#3
  · cases hp : presented s with
    | none => exact .inl (.inl (State.complete_iff.mpr ⟨h0, hp⟩))
    | some w => exact .inr ⟨h0, w, rfl⟩
  · exact .inl (.inr (State.stuckEnd_iff.mpr h0))

/-- By induction on a bound for the words left: a run that has not ended has a word on the port, and its step either
ends the run or leaves one word fewer. -/
theorem run_ends (k : Nat) (hs : s.Inv) (hk : s.program.length - s.ci ≤ k) :
    ∃ n t, n ≤ k ∧ core.run n s = .next t ∧ (t.complete = true ∨ t.stuckEnd = true) := by
  induction k generalizing s with
  | zero =>
    obtain hend | ⟨-, w, hp⟩ := ended_or_presented s
    · exact ⟨0, s, le_rfl, rfl, hend⟩
    · have hlt := ci_lt_of_presented hp
      omega
  | succ k ih =>
    obtain hend | ⟨h0, w, hp⟩ := ended_or_presented s
    · exact ⟨0, s, Nat.zero_le _, rfl, hend⟩
    · obtain ⟨t, h⟩ := step_has_next hs h0
      obtain hfault | ⟨hprog, hci⟩ := step_takes_word hp h
      · exact ⟨1, t, by omega, run_succ_of_next h, .inr (State.stuckEnd_iff.mpr hfault)⟩
      · obtain ⟨n, u, hn, hrun, hend⟩ := ih (step_keeps_inv hs h) (by rw [hprog, hci]; omega)
        exact ⟨n + 1, u, by omega, (run_succ_of_next h).trans hrun, hend⟩

/-! ### Several instances (60_exceptions.md R215) -/

/-- Everything `stepInstance` can do. -/
theorem stepInstance_next {ss ts : List State} {k : Nat} (h : stepInstance ss k = .next ts) :
    (ss[k]? = none ∧ ts = ss) ∨ ∃ s t, ss[k]? = some s ∧ step s = .next t ∧ ts = ss.set k t := by
  rw [stepInstance] at h
  split at h
  · next hk => exact .inl ⟨hk, (Host.Outcome.next.inj h).symm⟩
  · next s hk =>
    split at h
    · next t ht => exact .inr ⟨s, t, hk, ht, (Host.Outcome.next.inj h).symm⟩
    · cases h
    · cases h

end Exceptions

/-- Settles O7: a stuck block stops, and any other has a next state, for the canvas its commands read is there. -/
theorem onlyARecordedFaultStopsTheBlock : Obligations.OnlyARecordedFaultStopsTheBlock := by
  intro s hs
  by_cases h0 : s.faultCause = 0#3
  · obtain ⟨t, ht⟩ := step_has_next hs h0
    rw [ht]; trivial
  · rw [step_of_stuck h0]
    exact ⟨h0, rfl⟩

/-- Settles O8: `run_ends` with the words left as the bound. -/
theorem everyRunEnds : Obligations.EveryRunEnds := fun _ hs => run_ends _ hs le_rfl

/-- Settles O11: each outcome by what the word decodes to and, for a command, by STATE. -/
theorem checkOrder : Obligations.CheckOrder := by
  rintro s w ⟨hcanvas, -⟩ hp
  split
  · next hstuck => exact step_of_stuck hstuck
  next h0 =>
  replace h0 : s.faultCause = 0#3 := not_not.mp h0
  split
  · next hop => exact step_of_illegalOpcode hp h0 (decode_eq_illegalOpcode_iff.mpr (by rw [HasIllegalOpcode]; omega))
  next hop =>
  split
  · next hres => exact step_of_reservedBits hp h0 (decode_eq_reservedBits_iff.mpr (by rw [HasReservedBit]; omega))
  next hres =>
  obtain ⟨i, hd⟩ := exists_decode_eq_instr (w := w) (by rw [HasIllegalOpcode]; omega) (by rw [HasReservedBit]; omega)
  have hinit := opcode_eq_one_iff_of_decode hd
  split
  · next hreinit =>
    obtain ⟨hop, hr⟩ := hreinit
    obtain ⟨boards, pin, rfl⟩ := hinit.mp hop
    exact step_of_init_of_ready hp hd h0 hr
  next hreinit =>
  split
  · next hnotInit =>
    obtain ⟨hop, hu⟩ := hnotInit
    exact step_of_uninit hp hd (fun boards pin hi => hop (hinit.mpr ⟨boards, pin, hi⟩)) h0 hu
  next hnotInit =>
  have hgate : w.toNat / 2 ^ 32 = 1 ↔ s.initState = .uninit := by
    cases hst : s.initState with
    | uninit => simpa [hst] using hnotInit
    | ready => simpa [hst] using hreinit
  obtain ⟨t, ht⟩ := exec_runs hcanvas (hinit.symm.trans hgate) h0
  exact ⟨i, t, hd, step_of_instr hp hd, ht⟩

/-- Settles O12: the state is `recordFault`'s, whose cause is not 0 whatever the host adds to the program. -/
theorem faultsArePrecise : Obligations.FaultsArePrecise := by
  intro s t w hp h ht
  obtain ⟨h0, c, rfl⟩ := step_eq_recordFault hp h ht
  refine ⟨h0, rfl, step_of_stuck ht, fun u => step_of_stuck (s := (recordFault c w s).present u) ht, ?_,
    State.stuckEnd_iff.mpr ht⟩
  rw [← Bool.not_eq_true, State.complete_iff]
  rintro ⟨hc, -⟩
  exact ht hc

/-- Settles O13: every branch of a step and every command checks first that no fault is recorded. -/
theorem faultedBlockIsStuck : Obligations.FaultedBlockIsStuck :=
  fun _ h => ⟨step_of_stuck h, fun i => exec_of_stuck i h⟩

/-- Settles O14: NOT_INITIALIZED is cause 3. -/
theorem uninitializedCommandsFault : Obligations.UninitializedCommandsFault := fun _ _ => exec_of_uninit

/-- Settles O15: REINIT is cause 4. -/
theorem reinitializationFaults : Obligations.ReinitializationFaults := fun _ _ _ => exec_init_of_ready

/-- Settles O52: `stepInstance` sets index `k` of the list to the next state, and nothing where there is no state. -/
theorem instancesAreIndependent : Obligations.InstancesAreIndependent := by
  intro ss ts k h
  obtain ⟨hk, rfl⟩ | ⟨s, t, hk, ht, rfl⟩ := stepInstance_next h
  · exact ⟨rfl, fun _ _ => rfl, fun s hs => by simp [hk] at hs⟩
  · refine ⟨List.length_set, fun j hj => List.getElem?_set_ne hj.symm, fun s' hs' => ?_⟩
    obtain rfl : s = s' := Option.some.inj (hk.symm.trans hs')
    exact ⟨t, ht, List.getElem?_set_self (List.getElem?_eq_some_iff.mp hk).1⟩

end Sys2Proof.Machine

/-!
The statements on power-on reset and on what one command leaves for the next (70_reset_and_hazards.md). What the boards
show follows the chain alone (`sameShown_of_chain_eq`): a command that sends no frame leaves the chain as it was, but for
an INIT, before and after which nothing is settled (`showsNothing_of_uninit`, `showsNothing_configure`).
-/

namespace Sys2Proof.Machine

section ResetAndHazards

variable {s t : State} {i : Instr} {b : BitVec 4} {m m' : Memory} {boards bar peak n : Nat} {pin : BitVec 8}

/-! ### FILL after any canvas (70_reset_and_hazards.md R236) -/

/-- What FILL stores is a matter of its operands and the board count only. -/
theorem Memory.filled_eq_filled (hw : m.wf = true) (hl : m.Below (4 * boards)) (hw' : m'.wf = true)
    (hl' : m'.Below (4 * boards)) (ha : adj1 bar / 8 < 4 * boards) :
    m.filled boards bar peak = m'.filled boards bar peak := by
  refine Memory.ext_of_bits (Memory.wf_filled _ _ _ hw) (Memory.wf_filled _ _ _ hw') (Memory.below_filled _ hl ha)
    (Memory.below_filled _ hl' ha) (fun p hp => ?_)
  rw [Memory.bit_filled m hp, Memory.bit_filled m' hp]

/-! ### Bytes sent (70_reset_and_hazards.md R239) -/

@[simp] theorem txCount_append_frameEvents (es : List Event) (bs : List Byte) :
    txCount (es ++ frameEvents bs) = txCount es + bs.length := by
  rw [txCount_append, txCount_frame]

theorem txCount_out_configure (boards pin : BitVec 8) (s : State) :
    txCount (configure boards pin s).out = txCount s.out := by
  rw [configure_out, txCount_append]; rfl

/-! ### Which commands send a frame (70_reset_and_hazards.md R233) -/

theorem framesFrom_append_selInit (es : List Event) (cur : Option (List Byte)) (pin : BitVec 8) :
    framesFrom cur (es ++ [.selInit pin]) = framesFrom cur es := by
  induction es generalizing cur with
  | nil => cases cur <;> rfl
  | cons e es ih =>
    cases e with
    | selInit pin => simp [framesFrom, ih]
    | selDrive l => cases l <;> cases cur <;> simp [framesFrom, ih]
    | tx b => cases cur <;> simp [framesFrom, ih]

theorem frames_configure (boards pin : BitVec 8) (s : State) : (configure boards pin s).frames = s.frames :=
  framesFrom_append_selInit s.out none pin

theorem frames_transferFrame_ne (src : FrameSource) (bs : List Byte) (s : State) :
    (transferFrame src bs s).frames ≠ s.frames := by
  simp

/-- An INIT sends no frame, whatever it answers. -/
theorem frames_of_exec_init {boards : BitVec 8} (h : exec (.init boards pin) s = .next t) : t.frames = s.frames := by
  obtain ⟨-, ⟨-, rfl⟩ | ⟨-, rfl⟩ | ⟨-, -, -, rfl⟩⟩ := initUnder_next h
  · rfl
  · rfl
  · exact frames_configure boards pin s

/-- An out-of-range FILL sends no frame. -/
theorem frames_of_exec_fill_out_of_range {bar peak : BitVec 16} (h : exec (.fill bar peak) s = .next t)
    (hb : s.bc = some b) (hout : 32 * b.toNat < adj1 bar.toNat) : t.frames = s.frames := by
  obtain ⟨-, ⟨-, rfl⟩ | ⟨-, b', m, hb', -, ⟨-, rfl⟩ | ⟨ha, -⟩⟩⟩ := execFill_next h
  · rfl
  · rfl
  · obtain rfl : b = b' := Option.some.inj (hb.symm.trans hb')
    exact absurd (adj1InRange_eq_true_iff_le.mp ha) (Nat.not_le_of_gt hout)

/-! ### What the boards show (70_reset_and_hazards.md R233, R234) -/

/-- The latches and every LED are in `t` what they are in `s`, for every bit order and placement. -/
def SameShown (s t : State) : Prop :=
  t.display = s.display ∧ ∀ order place L, t.ledShown order place L = s.ledShown order place L

/-- Nothing is settled of the latches nor of any LED, for any bit order and placement. -/
def ShowsNothing (s : State) : Prop :=
  s.display = none ∧ ∀ order place L, s.ledShown order place L = none

theorem sameShown_of_chain_eq (h : t.chain = s.chain) : SameShown s t := by
  constructor
  · rw [State.display, State.display, h]
  · intro order place L
    rw [State.ledShown, State.ledShown, State.cellShown, State.cellShown, h]

theorem ShowsNothing.sameShown (hs : ShowsNothing s) (ht : ShowsNothing t) : SameShown s t := by
  obtain ⟨hdisplay, hled⟩ := hs
  obtain ⟨hdisplay', hled'⟩ := ht
  exact ⟨hdisplay'.trans hdisplay.symm, fun order place L => (hled' order place L).trans (hled order place L).symm⟩

theorem showsNothing_of_chain_unsettled (hn : 1 ≤ n) (h : s.chain = some (Chain.unsettled n)) : ShowsNothing s := by
  constructor
  · rw [State.display, h]
    exact settled_unsettledBytes hn
  · intro order place L
    rw [State.ledShown, State.cellShown, h]
    exact cell_unsettled n order place _ _

/-- Before INIT there is no chain: BC holds no value. -/
theorem showsNothing_of_uninit (hs : s.CanvasInv) (hu : s.initState = .uninit) : ShowsNothing s := by
  obtain ⟨hb, -, -⟩ := hs.of_uninit hu
  have hchain : s.chain = none := by rw [State.chain, hb, Option.map_none]
  constructor
  · rw [State.display, hchain, Option.bind_none]
  · intro order place L
    rw [State.ledShown, State.cellShown, hchain, Option.bind_none]

/-- INIT's event comes first in OUT and leaves the chain before its first frame. -/
theorem showsNothing_configure {boards : BitVec 8} (hs : s.TraceInv) (hu : s.initState = .uninit)
    (h1 : 1 ≤ boards.toNat) (h8 : boards.toNat ≤ 8) : ShowsNothing (configure boards pin s) := by
  obtain ⟨hout, -⟩ := hs.of_uninit hu
  have hcount : 1 ≤ (boards.setWidth 4).toNat := by rwa [setWidth_toNat_of_le_eight h8]
  refine showsNothing_of_chain_unsettled hcount ?_
  rw [State.chain, configure_bc, configure_out, hout]
  rfl

/-- Of a command's effects only a frame changes what is shown: INIT's event does not, for nothing was settled before. -/
theorem Effect.sameShown (h : Effect i s t) (hs : s.Inv ∨ ∀ boards pin, i ≠ .init boards pin)
    (hf : t.frames = s.frames) : SameShown s t := by
  cases h with
  | reinit | notInitialized | initFailed | noOp | drawn => exact sameShown_of_chain_eq rfl
  | initDone boards pin hi hu h1 h8 =>
    obtain ⟨hcanvas, -, htrace, -⟩ := hs.resolve_right (fun hne => hne boards pin hi)
    exact (showsNothing_of_uninit hcanvas hu).sameShown (showsNothing_configure htrace hu h1 h8)
  | filled m d => exact absurd hf (frames_transferFrame_ne _ _ (setCanvas d s))
  | flushed | sent => exact absurd hf (frames_transferFrame_ne _ _ s)

/-- After an accepted INIT nothing is settled, whether it configured the block or failed (40_init.md R104). -/
theorem showsNothing_of_exec_init {boards : BitVec 8} (hs : s.Inv) (h : exec (.init boards pin) s = .next t)
    (hacc : t.faultCause = 0#3) : ShowsNothing t := by
  obtain ⟨hcanvas, -, htrace, -⟩ := hs
  obtain ⟨-, ⟨-, rfl⟩ | ⟨hu, rfl⟩ | ⟨hu, h1, h8, rfl⟩⟩ := initUnder_next h
  · exact absurd hacc (recordFault_faultCause_ne_zero _ _ _)
  · exact showsNothing_of_uninit hcanvas hu
  · exact showsNothing_configure htrace hu h1 h8

/-! ### SENDRAW and the next FLUSH (70_reset_and_hazards.md R235) -/

/-- The state an accepted SENDRAW leaves. -/
def sendrawNext (v : BitVec 32) (s : State) : State :=
  accept .none (transferFrame .sendraw (rawBytes v) s)

theorem exec_sendraw_eq_sendrawNext {v : BitVec 32} (h0 : s.faultCause = 0#3) (hr : s.initState = .ready) :
    exec (.sendraw v) s = .next (sendrawNext v s) :=
  exec_sendraw_of_ready h0 hr

theorem sendrawNext_faultCause (v : BitVec 32) (s : State) : (sendrawNext v s).faultCause = s.faultCause := by
  simp [sendrawNext]

theorem sendrawNext_initState (v : BitVec 32) (s : State) : (sendrawNext v s).initState = s.initState := by
  simp [sendrawNext]

theorem sendrawNext_bc (v : BitVec 32) (s : State) : (sendrawNext v s).bc = s.bc := by
  simp [sendrawNext]

theorem sendrawNext_canvas (v : BitVec 32) (s : State) : (sendrawNext v s).canvas = s.canvas := by
  simp [sendrawNext]

theorem sendrawNext_out (v : BitVec 32) (s : State) : (sendrawNext v s).out = s.out ++ frameEvents (rawBytes v) := by
  simp [sendrawNext]

theorem State.TraceInv.sendrawNext {v : BitVec 32} (hs : s.TraceInv) (hr : s.initState = .ready) :
    (sendrawNext v s).TraceInv :=
  hs.transferFrame hr (fun _ _ => rfl)

/-- Four bytes do not fill a chain of more than one board (93_implementation_defined.md item 7). -/
theorem showsNothing_sendrawNext {v : BitVec 32} (hs : s.TraceInv) (hr : s.initState = .ready) (hb : s.bc = some b)
    (h1 : 1 < b.toNat) : ShowsNothing (sendrawNext v s) := by
  have hshort : (rawBytes v).length ≠ 4 * b.toNat := by
    rw [rawBytes, List.length_cons, List.length_cons, List.length_cons, List.length_singleton]
    omega
  exact showsNothing_of_chain_unsettled h1.le
    (chain_of_short_frame hs hr hb (sendrawNext_bc v s) (sendrawNext_out v s) hshort)

end ResetAndHazards

/-- Settles O42: each FILL stores `Memory.filled`, the same for both canvases, and sends its bytes. -/
theorem fillDiscardsTheCanvas : Obligations.FillDiscardsTheCanvas := by
  intro s s' t t' bar peak b hs hs' hr hr' hb hb' hout ha h h'
  obtain ⟨m, hm, h1, hw, hl⟩ := hs.canvas_of_ready hr hb
  obtain ⟨m', hm', -, hw', hl'⟩ := hs'.canvas_of_ready hr' hb'
  obtain rfl := Host.Outcome.next.inj ((exec_fill_in_range (exec_effect h).1 hr hb hm h1 ha).symm.trans h)
  obtain rfl := Host.Outcome.next.inj ((exec_fill_in_range (exec_effect h').1 hr' hb' hm' h1 ha).symm.trans h')
  have hend : adj1 bar.toNat / 8 < 4 * b.toNat := adj1_div_lt h1 (adj1InRange_eq_true_iff_le.mpr ha)
  have hsame : m.filled b.toNat bar.toNat peak.toNat = m'.filled b.toNat bar.toNat peak.toNat :=
    Memory.filled_eq_filled hw hl hw' hl' hend
  rw [hsame, fillNext_canvas, fillNext_canvas, fillNext_out, fillNext_out, hout]
  exact ⟨rfl, rfl⟩

/-- Settles O50: a frame sends its bytes and nothing else sends any. -/
theorem bytesPerCommand : Obligations.BytesPerCommand := by
  intro i s t h hacc
  cases i with
  | init boards pin =>
    obtain ⟨-, ⟨-, rfl⟩ | ⟨-, rfl⟩ | ⟨-, -, -, rfl⟩⟩ := initUnder_next h
    · exact absurd hacc (recordFault_faultCause_ne_zero _ _ _)
    · rfl
    · exact txCount_out_configure boards pin s
  | clear =>
    obtain ⟨-, ⟨-, rfl⟩ | ⟨-, b, m, -, -, rfl⟩⟩ := execClear_next h
    · exact absurd hacc (recordFault_faultCause_ne_zero _ _ _)
    · rfl
  | paint pos v =>
    obtain ⟨-, ⟨-, rfl⟩ | ⟨-, b, m, -, -, rfl⟩⟩ := execPaint_next h
    · exact absurd hacc (recordFault_faultCause_ne_zero _ _ _)
    · rfl
  | fill bar peak =>
    obtain ⟨-, ⟨-, rfl⟩ | ⟨-, b, m, hb, -, ⟨ha, rfl⟩ | ⟨ha, -, d, -, rfl⟩⟩⟩ := execFill_next h
    · exact absurd hacc (recordFault_faultCause_ne_zero _ _ _)
    · have hle : ¬adj1 bar.toNat ≤ 32 * b.toNat := by simp [← adj1InRange_eq_true_iff_le, ha]
      simp [hb, hle]
    · have hle := adj1InRange_eq_true_iff_le.mp ha
      simp [hb, hle]
  | flush =>
    obtain ⟨-, ⟨-, rfl⟩ | ⟨-, b, m, hb, -, rfl⟩⟩ := execFlush_next h
    · exact absurd hacc (recordFault_faultCause_ne_zero _ _ _)
    · simp [hb]
  | sendraw value =>
    obtain ⟨-, ⟨-, rfl⟩ | ⟨-, rfl⟩⟩ := execSendraw_next h
    · exact absurd hacc (recordFault_faultCause_ne_zero _ _ _)
    · rw [accept_out, transferFrame_out, txCount_append_frameEvents]; rfl

/-- Settles O56: by the effects of a command for what is shown, and command by command for what sends no frame. -/
theorem displayChangesOnlyByFrames : Obligations.DisplayChangesOnlyByFrames := by
  refine ⟨fun i s t hs h hf => (exec_effect h).2.sameShown hs hf, ?_,
    fun s t boards pin hs h hacc => showsNothing_of_exec_init hs h hacc⟩
  rintro i s t h (hfault | rfl | ⟨pos, v, rfl⟩ | ⟨boards, pin, rfl⟩ | ⟨bar, peak, b, rfl, hb, hout⟩)
  · obtain ⟨h0, heffect⟩ := exec_effect h
    obtain ⟨c, rfl⟩ := heffect.eq_recordFault h0 hfault
    rfl
  · obtain ⟨-, ⟨-, rfl⟩ | ⟨-, b, m, -, -, rfl⟩⟩ := execClear_next h <;> rfl
  · obtain ⟨-, ⟨-, rfl⟩ | ⟨-, b, m, -, -, rfl⟩⟩ := execPaint_next h <;> rfl
  · exact frames_of_exec_init h
  · exact frames_of_exec_fill_out_of_range h hb hout

/-- Settles O57: SENDRAW's frame keeps the canvas and the trace's shape, which is what the next FLUSH needs. -/
theorem flushAfterSendrawRestoresTheDisplay : Obligations.FlushAfterSendrawRestoresTheDisplay := by
  intro s v b hs hr h0 hb
  obtain ⟨m, hm, -⟩ := hs.canvas_of_ready hr hb
  obtain ⟨-, -, htrace, -⟩ := hs
  have htrace' : (sendrawNext v s).TraceInv := htrace.sendrawNext hr
  have hr' : (sendrawNext v s).initState = .ready := (sendrawNext_initState v s).trans hr
  have hb' : (sendrawNext v s).bc = some b := (sendrawNext_bc v s).trans hb
  have hm' : (sendrawNext v s).canvas = some m := (sendrawNext_canvas v s).trans hm
  obtain ⟨-, hflushed⟩ := flushed_of_frameBytes hb' hm' htrace'.frameSources_length rfl
  exact ⟨_, _, exec_sendraw_eq_sendrawNext h0 hr, sendrawNext_canvas v s, showsNothing_sendrawNext htrace hr hb,
    exec_flush_eq_flushNext ((sendrawNext_faultCause v s).trans h0) hr' hb' hm',
    (display_flushNext htrace' hr' hb').trans (canvasBytes_eq hb hm).symm, hflushed⟩

/-- Settles O1: each value of the table is the one `State.reset` writes out. -/
theorem resetValues : Obligations.ResetValues :=
  ⟨rfl, rfl, rfl, rfl, rfl, rfl, rfl, rfl, rfl⟩

/-- Settles O2, part by part: what the invariant says of UNINIT, no fault recorded, and nothing accepted. -/
theorem resetSatisfiesInvariant : Obligations.ResetSatisfiesInvariant := by
  have hcanvas : State.reset.CanvasInv := ⟨rfl, rfl, rfl⟩
  have hsel : State.reset.SelInv := ⟨rfl, rfl⟩
  have htrace : State.reset.TraceInv := ⟨rfl, rfl⟩
  have hfault : State.reset.FaultInv := faultInv_of_clear rfl rfl
  have hport : State.reset.PortInv := ⟨rfl, le_rfl⟩
  exact ⟨hcanvas, hsel, htrace, hfault, hport⟩

end Sys2Proof.Machine
